-- ==== Sys2Proof/Word.lean ====
section
/-! DEFINITION. The word types of the block (00_scope.md R6, R8): bytes, the 128-bit command word, the 32-bit wire
frame and the 64-bit pattern of the brightness operand. -/

namespace Sys2Proof

/-- A byte: 8 bits, unsigned, bit 0 least significant (R6). -/
abbrev Byte := BitVec 8

/-- A command word CMD (30_encoding.md R58). -/
abbrev CommandWord := BitVec 128

/-- A wire frame drawn as a 32-bit word, bit 31 first on the wire (30_encoding.md R51, 20_memory.md R34). -/
abbrev FrameWord := BitVec 32

/-- The bit pattern of an IEEE 754 binary64 datum, the format of the brightness operand (30_encoding.md R59, D4). -/
abbrev Binary64 := BitVec 64

end Sys2Proof
end

