-- ==== Sys2Proof/Config.lean ====
section
/-! DEFINITION. The parameters of the block that the spec leaves OPEN or names as configuration fields (00_scope.md
R5). They are plain data; a machine state carries its own copy, so a statement about every state holds for every
instance of them (log 1). -/

namespace Sys2Proof

/-- The instances of the quantiser Q (30_encoding.md R56, R67, D5): the exact real product, which is the default, and
the product formed in binary64 arithmetic with round-to-nearest-even. -/
inductive Quantiser where
  | exact
  | product64
  deriving DecidableEq, Repr

/-- The parameters of one block (00_scope.md R5). `nMax` is N_MAX (D6), `quantiser` the instance of Q (D5),
`pinData` and `pinClock` the physical identity of the two lines, which no rule reads (D15). -/
structure Config where
  nMax : Nat
  quantiser : Quantiser
  pinData : Nat
  pinClock : Nat
  deriving DecidableEq, Repr

/-- The parameters of the state after power-on. The exact Q is the spec's default instance (D5). N_MAX = 64 is the
largest N for which the end frame suffices (70_reset_and_hazards.md R186): DESIGN CHOICE, log 1. The pins are the
Blinkt! board's (93_implementation_defined.md G2): PRESUMED, log 1. No statement rests on these values. -/
def Config.atReset : Config := { nMax := 64, quantiser := .exact, pinData := 23, pinClock := 24 }

/-- BRIGHT_DEFAULT of 00_scope.md R5: 0.2 as the nearest binary64 (30_encoding.md R65). -/
def Config.brightDefault : Binary64 := 0x3FC999999999999A#64

/-- The count of `new(line_driver)` when it is omitted (30_encoding.md R65, D18). -/
def Config.ledCountDefault : Int := 8

end Sys2Proof
end

