-- ==== Sys2Proof/Syntax.lean ====
section
/-! DEFINITION. The instructions of the block: one constructor per row of spec/opcode_table.json (30_encoding.md R69),
and the two pseudo-forms of the assembler (R65). -/

namespace Sys2Proof

/-- The two output lines, logical ids DATA = 0 and CLOCK = 1 (41_show_transmit.md R109, D15). -/
inductive Line where
  | data
  | clock
  deriving DecidableEq, Repr

/-- The logical id of a line "where a number is wanted" (R109, D15). -/
def Line.id : Line → Nat
  | .data => 0
  | .clock => 1

/-- The eleven rows of the opcode table: five host commands (00_scope.md R4), three wire frames (30_encoding.md R51) and
three internal micro-operations (41_show_transmit.md R107 to R109). -/
inductive Instr where
  /-- NEW (R130). -/
  | new (ledCount : Int)
  /-- SET_PIXEL (R80), operands in call order. -/
  | setPixel (index : Int) (red green blue : Byte) (brightness : Binary64)
  /-- CLEAR (R81). -/
  | clear
  /-- SHOW (R100). -/
  | showBuffer
  /-- DISPOSE (R131). -/
  | dispose
  /-- The START frame (R103). -/
  | startFrame
  /-- An LED frame (R104), operands in wire order. -/
  | led (brightness5 : BitVec 5) (blue green red : Byte)
  /-- The END frame (R105). -/
  | endFrame
  /-- SEND_BYTE (R107). -/
  | sendByte (v : Byte)
  /-- SEND_BIT (R108). -/
  | sendBit (b : Bool)
  /-- LINE_WRITE (R109); `true` is high (60_exceptions.md R165). -/
  | lineWrite (line : Line) (level : Bool)
  deriving DecidableEq, Repr

/-- The five commands a host may issue (00_scope.md R4). -/
def Instr.isCommand : Instr → Bool
  | .new _ => true
  | .setPixel _ _ _ _ _ => true
  | .clear => true
  | .showBuffer => true
  | .dispose => true
  | .startFrame => false
  | .led _ _ _ _ => false
  | .endFrame => false
  | .sendByte _ => false
  | .sendBit _ => false
  | .lineWrite _ _ => false

/-- The three wire frames (30_encoding.md R51). -/
def Instr.isFrame : Instr → Bool
  | .new _ => false
  | .setPixel _ _ _ _ _ => false
  | .clear => false
  | .showBuffer => false
  | .dispose => false
  | .startFrame => true
  | .led _ _ _ _ => true
  | .endFrame => true
  | .sendByte _ => false
  | .sendBit _ => false
  | .lineWrite _ _ => false

end Sys2Proof
end

