-- ==== Sys2Proof/Machine/State.lean ====
section
/-! DEFINITION. The state of the block (10_state.md) as plain data, the reasons a step can stop, and the state at
power-on (R23). Fields below the line "the model's own" are not hardware: they carry the environment's inputs, the
command port's answer and the open parameters (logs 1 to 6 and 8). -/

namespace Sys2Proof.Machine

/-- LIFE (R13). A controller that exists carries its number of entries N, which has meaning only while LIFE = ACTIVE
(R12, log 10). -/
inductive Life where
  | unbuilt
  | active (n : Nat)
  | failed
  deriving DecidableEq, Repr

/-- A position of the transmit sequencer (R14): stream byte `k`, bit `j` of that byte, line write `ph` of that bit. -/
structure TxPos where
  k : Nat
  j : Fin 8
  ph : Fin 3
  deriving DecidableEq, Repr

/-- TX (R14): IDLE whenever no SHOW is running. -/
inductive Tx where
  | idle
  | pos (p : TxPos)
  deriving DecidableEq, Repr

/-- LVL of a line (R15): the level last written, or `unknown`, a value of the spec's own (D8). -/
inductive LineLevel where
  | driven (level : Bool)
  | unknown
  deriving DecidableEq, Repr

/-- One event of the trace W (R16): a line write and whether it succeeded. -/
structure Event where
  line : Line
  level : Bool
  ok : Bool
  deriving DecidableEq, Repr

/-- What the LineDriver could not do (60_exceptions.md R155, R165): open the lines, perform a write, release the lines. -/
inductive FailSite where
  | openLines
  | write (line : Line) (level : Bool)
  | releaseLines
  deriving DecidableEq, Repr

/-- The status a command returns (60_exceptions.md R150), with the information the spec lets a model carry (U13, log
23). -/
inductive Status where
  | ok
  | indexOutOfRange (index : Int)
  | lineAccessFailure (site : FailSite)
  deriving DecidableEq, Repr

/-- The environment's answers to one kind of request (R20, D11): the answers still to come in order, `true` for
"succeeds", and the answer to every request after them. Free data: log 2. -/
structure Oracle where
  answers : List Bool
  rest : Bool
  deriving DecidableEq, Repr

/-- The oracle that always answers "succeeds", D00's normal case (R20, C2). -/
def Oracle.healthy : Oracle := { answers := [], rest := true }

/-- The pixel buffer's flat view BUF (20_memory.md R30): offset and byte, offsets strictly rising, no entry equal to
what an unlisted offset reads as. -/
abbrev Memory := List Host.Cell

/-- One entry of the pixel buffer: four independent byte fields in buffer order (R11). -/
structure Pixel where
  brightness5 : Byte
  blue : Byte
  green : Byte
  red : Byte
  deriving DecidableEq, Repr

/-- Why the machine stops with a fault. No command of a host reaches one from power-on. -/
inductive Fault where
  /-- An access to a buffer offset outside 0 .. 4*N-1, which does not exist (20_memory.md R30). Raised by `memRead` and
  `memWrite`. Safe: the machine stops. -/
  | noSuchOffset (a : Nat)
  /-- A step with TX at a stream position that does not exist, or with no controller (20_memory.md R31, R14). Raised by
  `resume`. Safe: the machine stops. -/
  | noSuchStreamPosition (k : Nat)
  /-- The word in `frameSlot` is none of the three frames the encoder can produce (30_encoding.md R51, R63). Raised by
  `fetch`. Safe: the machine stops (log 22). -/
  | notAFrame (w : FrameWord)
  deriving DecidableEq, Repr

/-- Why a command is refused (60_exceptions.md R158, a closed list): the spec gives it no meaning and the model no
successor state. -/
inductive Refusal where
  /-- Raised by `exec` for an instruction without a meaning; no arm raises it in this model. Safe. -/
  | notModelled (mnemonic : String)
  /-- `reserved_op`: the command word's `op` spells no command (30_encoding.md R61). Raised by `fetch`. Safe. -/
  | reservedOp (op : Byte)
  /-- `not_active`: SET_PIXEL, CLEAR, SHOW or DISPOSE while LIFE is not ACTIVE (R13). Raised by those four. Safe. -/
  | notActive
  /-- `already_built_or_failed`: NEW while LIFE is not UNBUILT (42_lifecycle.md R130). Raised by NEW. Safe. -/
  | alreadyBuiltOrFailed
  /-- `bad_led_count`: NEW with `led_count` negative or above N_MAX (30_encoding.md R53). Raised by NEW. Safe. -/
  | badLedCount
  /-- `nan_brightness`: SET_PIXEL with a valid index and a NaN (30_encoding.md R59). Raised by SET_PIXEL. Safe. -/
  | nanBrightness
  deriving DecidableEq, Repr

/-- The state of the block. -/
structure State where
  /-- LIFE and, while ACTIVE, N (R12, R13). -/
  life : Life
  /-- The bytes of PB, by offset of the flat view (R10, R11, R30). -/
  mem : Memory
  /-- TX (R14). -/
  tx : Tx
  /-- LVL[DATA] (R15). -/
  lvlData : LineLevel
  /-- LVL[CLOCK] (R15). -/
  lvlClock : LineLevel
  /-- W, oldest event first (R16). -/
  w : List Event
  -- the model's own
  /-- The status of the command that returned last, as the command port reports it (R150); log 8. -/
  reply : Option Status
  /-- The command words the host will issue, the next one first; log 5. -/
  hostCommands : List CommandWord
  /-- A wire frame handed to the transmit stage by itself; log 6. -/
  frameSlot : Option FrameWord
  /-- LINE_OK: the answers to line writes (R20); log 2. -/
  lineOk : Oracle
  /-- The answers to OPEN_LINES (R132); log 3. -/
  openOk : Oracle
  /-- The answers to RELEASE_LINES (R133); log 3. -/
  releaseOk : Oracle
  /-- The open parameters, never written (00_scope.md R5); log 1. -/
  cfg : Config
  deriving DecidableEq, Repr

/-- Power-on (10_state.md R23): no controller, no buffer, TX IDLE, both levels unknown, W empty. The model's own fields
start with nothing pending and a healthy environment: DESIGN CHOICE, logs 1 to 6 and 8. -/
def State.reset : State where
  life := .unbuilt
  mem := []
  tx := .idle
  lvlData := .unknown
  lvlClock := .unknown
  w := []
  reply := none
  hostCommands := []
  frameSlot := none
  lineOk := Oracle.healthy
  openOk := Oracle.healthy
  releaseOk := Oracle.healthy
  cfg := Config.atReset

end Sys2Proof.Machine
end

