-- ==== Sys2Proof/Machine/Flags.lean ====
section
/-! DEFINITION. The block has no flags and no condition codes (10_state.md R17, R21). What stands in their place is the
status each command returns: its numeric code on the command port (60_exceptions.md R150) and the one operation by which
a command ends with a status (R152). -/

namespace Sys2Proof.Machine

/-- The 2-bit status code: OK = 0, IndexOutOfRange = 1, LineAccessFailure = 2; 3 is never returned (R150, D9). -/
def Status.code : Status → BitVec 2
  | .ok => 0
  | .indexOutOfRange _ => 1
  | .lineAccessFailure _ => 2

/-- A command ends and its status is reported to its caller; `raise E(info)` is this with an error status. Nothing is
saved for a handler and no other state records it (R152, R17). -/
def State.returning (s : State) (status : Status) : State := { s with reply := some status }

/-- The code on the command port, 2 bits wide, once a command has returned (R150). -/
def State.replyCode (s : State) : Option (BitVec 2) := s.reply.map Status.code

end Sys2Proof.Machine
end

