-- ==== Sys2Proof/Machine/Operands.lean ====
section
/-! DEFINITION. The operand forms of SET_PIXEL and NEW (30_encoding.md R52 to R59, R66, R67): the index and count
checks, the value of a binary64 datum, the clamp and both instances of the quantiser Q, computed exactly on integers. -/

namespace Sys2Proof.Machine

/-! ### Integer operands -/

/-- `0 <= index` and `index < N` on mathematical integers (R52, R66). -/
def indexInRange (index : Int) (n : Nat) : Bool := decide (0 ≤ index) && decide (index < (n : Int))

/-- `0 <= led_count <= N_MAX` (R53). -/
def ledCountAdmitted (ledCount : Int) (nMax : Nat) : Bool :=
  decide (0 ≤ ledCount) && decide (ledCount ≤ (nMax : Int))

/-! ### The binary64 operand (R59) -/

/-- The value of a binary64 datum: an infinity, a NaN, or a finite number counted in units of 2^-1074, of which every
finite binary64 number is a whole multiple. -/
inductive Datum where
  | negInf
  | finite (units : Int)
  | posInf
  | nan
  deriving DecidableEq, Repr

/-- The number of units in 1.0. -/
@[irreducible] def unitsInOne : Nat := 2 ^ 1074

/-- The sign bit. -/
def signBit (b : Binary64) : Bool := b.getLsbD 63

/-- The biased exponent field, bits 62:52. -/
def exponentField (b : Binary64) : Nat := (b.extractLsb' 52 11).toNat

/-- The fraction field, bits 51:0. -/
def fractionField (b : Binary64) : Nat := (b.extractLsb' 0 52).toNat

/-- The magnitude of a finite datum in units of 2^-1074: the fraction when it is subnormal or zero, else the 53-bit
significand scaled by its exponent. -/
def magnitude (b : Binary64) : Nat :=
  if exponentField b = 0 then fractionField b
  else (2 ^ 52 + fractionField b) * 2 ^ (exponentField b - 1)

/-- The value of a binary64 pattern; a NaN has all exponent bits one and a non-zero fraction (R59). -/
def datum (b : Binary64) : Datum :=
  if exponentField b = 2047 then
    if fractionField b = 0 then (if signBit b then .negInf else .posInf) else .nan
  else .finite (if signBit b then -(magnitude b : Int) else (magnitude b : Int))

/-- `clamp` on the extended reals (R55), in units: 0 below 0, one above 1, the value itself between; none for a NaN. -/
def clamp : Datum → Option Nat
  | .negInf => some 0
  | .posInf => some unitsInOne
  | .nan => none
  | .finite x => some (if x < 0 then 0 else if (unitsInOne : Int) < x then unitsInOne else x.toNat)

/-- Round an integer to 53 significant bits, to nearest, ties to even: the binary64 rounding of a number of units. -/
def roundTo53 (y : Nat) : Nat :=
  if y < 2 ^ 53 then y
  else
    let step := 2 ^ (Nat.log2 y - 52)
    let q := y / step
    let r := y % step
    if step < 2 * r ∨ (step = 2 * r ∧ q % 2 = 1) then (q + 1) * step else q * step

/-- The brightness level of a clamped operand (R56): the product with 31, exact or rounded in binary64 (R67), floored. -/
def quantiseUnits (q : Quantiser) (units : Nat) : Nat :=
  match q with
  | .exact => 31 * units / unitsInOne
  | .product64 => roundTo53 (31 * units) / unitsInOne

/-- The quantiser Q on a brightness operand (R55, R56); none for a NaN, which has no meaning (R59). -/
def quantise (q : Quantiser) (b : Binary64) : Option Byte :=
  (clamp (datum b)).map (fun units => BitVec.ofNat 8 (quantiseUnits q units))

end Sys2Proof.Machine
end

