-- ==== Sys2Proof/Machine/Ops.lean ====
section
/-! DEFINITION. The shared operations: buffer bytes in canonical form (20_memory.md R30), entries of PB (10_state.md
R11), the environment's answers (R20), the transmit sequencer (R14), and one line write (41_show_transmit.md R109).
Raising an error is `State.returning` of Flags.lean (60_exceptions.md R152); there is no return from an error (R156). -/

namespace Sys2Proof.Machine

/-! ### Buffer bytes -/

/-- What an unlisted offset reads as: the buffer is zero-initialised (R10). -/
def Memory.unlisted : Byte := 0

/-- The byte at an offset. -/
def Memory.read : Memory → Nat → Byte
  | [], _ => Memory.unlisted
  | (b, x) :: rest, a => if a = b then x else Memory.read rest a

/-- Put a byte at an offset, keeping the canonical form. -/
def Memory.write : Memory → Nat → Byte → Memory
  | [], a, v => if v = Memory.unlisted then [] else [(a, v)]
  | (b, x) :: rest, a, v =>
    if a < b then (if v = Memory.unlisted then (b, x) :: rest else (a, v) :: (b, x) :: rest)
    else if a = b then (if v = Memory.unlisted then rest else (b, v) :: rest)
    else (b, x) :: Memory.write rest a v

/-- Every byte below an offset becomes zero. -/
def Memory.zeroBelow (m : Memory) (size : Nat) : Memory := m.filter (fun c => decide (size ≤ c.1))

/-- Offsets at least `lo` and strictly rising, no listed byte equal to an unlisted one. -/
def Memory.wfFrom : Nat → Memory → Bool
  | _, [] => true
  | lo, (b, x) :: rest => decide (lo ≤ b) && decide (x ≠ Memory.unlisted) && Memory.wfFrom (b + 1) rest

/-- The canonical form, so that equal buffers are equal data. -/
def Memory.wf (m : Memory) : Bool := Memory.wfFrom 0 m

/-! ### N and the entries of PB -/

/-- N, or 0 while no controller exists and so no entry does (R12, log 10). -/
def State.count (s : State) : Nat :=
  match s.life with
  | .active n => n
  | .unbuilt => 0
  | .failed => 0

/-- `MemRead(a, 1)` (R30): no offset outside 0 .. 4*N-1 exists. -/
def State.memRead (s : State) (a : Nat) : Except Fault Byte :=
  if a < 4 * s.count then .ok (s.mem.read a) else .error (.noSuchOffset a)

/-- Replace the bytes of the buffer. -/
def State.setMem (s : State) (m : Memory) : State := { s with mem := m }

/-- `MemWrite(a, 1, v)` (R30). -/
def State.memWrite (s : State) (a : Nat) (v : Byte) : Except Fault State :=
  if a < 4 * s.count then .ok (s.setMem (s.mem.write a v)) else .error (.noSuchOffset a)

/-- The entry of a flat buffer at position `i`: brightness5, blue, green, red at offsets 4*i .. 4*i+3 (R30). -/
def Memory.pixel (m : Memory) (i : Nat) : Pixel where
  brightness5 := m.read (4 * i)
  blue := m.read (4 * i + 1)
  green := m.read (4 * i + 2)
  red := m.read (4 * i + 3)

/-- `PB[i]` (R11). -/
def State.pixel (s : State) (i : Nat) : Pixel := s.mem.pixel i

/-- The whole buffer PB[0..N-1] in index order (R10). -/
def State.pixels (s : State) : List Pixel := (List.range s.count).map s.pixel

/-- The buffer with the four bytes of entry `i` replaced (R80). -/
def Memory.setPixel (m : Memory) (i : Nat) (p : Pixel) : Memory :=
  (((m.write (4 * i) p.brightness5).write (4 * i + 1) p.blue).write (4 * i + 2) p.green).write (4 * i + 3) p.red

/-- The four writes of SET_PIXEL in the order of its pseudocode (R80). -/
def State.storePixel (s : State) (i : Nat) (p : Pixel) : Except Fault State :=
  match s.memWrite (4 * i) p.brightness5 with
  | .error f => .error f
  | .ok s1 =>
    match s1.memWrite (4 * i + 1) p.blue with
    | .error f => .error f
    | .ok s2 =>
      match s2.memWrite (4 * i + 2) p.green with
      | .error f => .error f
      | .ok s3 => s3.memWrite (4 * i + 3) p.red

/-- Every field of every entry becomes zero (R81). -/
def State.zeroBuffer (s : State) : State := s.setMem (s.mem.zeroBelow (4 * s.count))

/-! ### The environment's answers (R20) -/

/-- The next answer, and the oracle after it has been given. -/
def Oracle.ask (o : Oracle) : Bool × Oracle :=
  match o.answers with
  | [] => (o.rest, o)
  | a :: more => (a, { o with answers := more })

/-- The answer to the `p`-th request from now, counting from 0. -/
def Oracle.answerAt (o : Oracle) (p : Nat) : Bool := o.answers.getD p o.rest

/-- The oracle after `p` more requests. -/
def Oracle.skip (o : Oracle) (p : Nat) : Oracle := { o with answers := o.answers.drop p }

/-! ### The transmit sequencer (R14) -/

/-- STREAM_BYTES = 4 + 4*N + 4 (00_scope.md R5). -/
def streamBytes (n : Nat) : Nat := 4 + 4 * n + 4

/-- Where a SHOW begins: (0, 7, 0). -/
def TxPos.start : TxPos := { k := 0, j := 7, ph := 0 }

/-- The position after one successful line write; after (STREAM_BYTES-1, 0, 2) the sequencer is IDLE (R14). -/
def TxPos.next (p : TxPos) (total : Nat) : Tx :=
  if h : p.ph.val < 2 then .pos { p with ph := ⟨p.ph.val + 1, by omega⟩ }
  else if h : 0 < p.j.val then .pos { p with j := ⟨p.j.val - 1, by omega⟩, ph := 0 }
  else if p.k + 1 < total then .pos { k := p.k + 1, j := 7, ph := 0 }
  else .idle

/-- The linear position 24*k + 3*(7-j) + ph (R14). -/
def TxPos.linear (p : TxPos) : Nat := 24 * p.k + 3 * (7 - p.j.val) + p.ph.val

/-- Advance TX. Outside a SHOW it stays IDLE (log 7). -/
def Tx.advance (t : Tx) (total : Nat) : Tx :=
  match t with
  | .idle => .idle
  | .pos p => p.next total

/-! ### Line levels and line writes -/

/-- LVL[line] (R15). -/
def State.lvl (s : State) (line : Line) : LineLevel :=
  match line with
  | .data => s.lvlData
  | .clock => s.lvlClock

/-- Set LVL[line]. -/
def State.setLvl (s : State) (line : Line) (level : LineLevel) : State :=
  match line with
  | .data => { s with lvlData := level }
  | .clock => { s with lvlClock := level }

/-- How a run of line writes ends: all done, or stopped by a LineAccessFailure with the state it left. -/
inductive Attempt where
  | done (s : State)
  | raised (s : State) (site : FailSite)
  deriving DecidableEq, Repr

/-- Go on after a successful part; a failure propagates at once (R107, R111). -/
def Attempt.bind (a : Attempt) (f : State → Attempt) : Attempt :=
  match a with
  | .done s => f s
  | .raised s site => .raised s site

/-- The state an attempt leaves, failed or not. -/
def Attempt.state : Attempt → State
  | .done s => s
  | .raised s _ => s

/-- Do something for each element in order, stopping at the first failure. -/
def forEach {α : Type} : List α → (α → State → Attempt) → State → Attempt
  | [], _, s => .done s
  | x :: xs, f, s => (f x s).bind (forEach xs f)

/-- `LineWrite(line, level)` (R109): the environment answers, the event joins W; on success LVL takes the level and TX
advances, on failure LVL is unknown, TX is IDLE and LineAccessFailure is raised. -/
def lineWrite (line : Line) (level : Bool) (s : State) : Attempt :=
  let asked : State :=
    { s with lineOk := s.lineOk.ask.2, w := s.w ++ [{ line := line, level := level, ok := s.lineOk.ask.1 }] }
  if s.lineOk.ask.1 then
    .done { asked.setLvl line (.driven level) with tx := s.tx.advance (streamBytes s.count) }
  else
    .raised { asked.setLvl line .unknown with tx := .idle } (.write line level)

/-- The outcome of line writes issued by themselves, outside a command: what they did, and the error they raised, if
any, as the status (R152, log 7). -/
def Attempt.micro : Attempt → Host.Outcome State Fault Refusal
  | .done s => .next s
  | .raised s site => .next (s.returning (.lineAccessFailure site))

end Sys2Proof.Machine
end

