-- ==== Sys2Proof/Machine/BufferCommands.lean ====
section
/-! DEFINITION. SET_PIXEL and CLEAR (40_buffer_ops.md R80 to R83): they change the buffer and make no line write. -/

namespace Sys2Proof.Machine

/-- SET_PIXEL (R80), its checks in the order of R82: lifecycle, index, NaN; then the four fields of one entry. -/
def execSetPixel (index : Int) (red green blue : Byte) (brightness : Binary64) (s : State) :
    Host.Outcome State Fault Refusal :=
  match s.life with
  | .unbuilt => .refused .notActive
  | .failed => .refused .notActive
  | .active n =>
    if indexInRange index n then
      match quantise s.cfg.quantiser brightness with
      | none => .refused .nanBrightness
      | some level =>
        match s.storePixel index.toNat { brightness5 := level, blue := blue, green := green, red := red } with
        | .error f => .fault f
        | .ok s1 => .next (s1.returning .ok)
    else .next (s.returning (.indexOutOfRange index))

/-- CLEAR (R81). -/
def execClear (s : State) : Host.Outcome State Fault Refusal :=
  match s.life with
  | .unbuilt => .refused .notActive
  | .failed => .refused .notActive
  | .active _ => .next (s.zeroBuffer.returning .ok)

end Sys2Proof.Machine
end

