-- ==== Sys2Proof/Machine/Encoder.lean ====
section
/-! DEFINITION. The encoder as pure functions (41_show_transmit.md R101): the bytes of each frame, the stream ENCODE of
a buffer, its expansion into line writes (R115), and the recovery of the bytes from a trace (R113). -/

namespace Sys2Proof.Machine

/-- LED_HEADER: the three fixed top bits of an LED frame's first byte (00_scope.md R5). -/
def ledHeader : Byte := 0xE0

/-- The start frame's bytes (R103). -/
def startFrameBytes : List Byte := [0x00, 0x00, 0x00, 0x00]

/-- The end frame's bytes, the same for every N (R105, C1). -/
def endFrameBytes : List Byte := [0xFF, 0xFF, 0xFF, 0xFF]

/-- The bytes of one LED frame, the header ORed in here and not in the buffer (R104, 30_encoding.md R57). -/
def ledFrameBytes (p : Pixel) : List Byte := [ledHeader ||| p.brightness5, p.blue, p.green, p.red]

/-- ENCODE(PB, N) (R101, 20_memory.md R31). -/
def encodeStream (buffer : List Pixel) : List Byte :=
  startFrameBytes ++ buffer.flatMap ledFrameBytes ++ endFrameBytes

/-- The bits of a byte as they are sent, most significant first (20_memory.md R33). -/
def bitsMsbFirst (v : Byte) : List Bool :=
  [v.getLsbD 7, v.getLsbD 6, v.getLsbD 5, v.getLsbD 4, v.getLsbD 3, v.getLsbD 2, v.getLsbD 1, v.getLsbD 0]

/-- The three line writes of one bit (R108). -/
def bitWrites (b : Bool) : List (Line × Bool) := [(.data, b), (.clock, true), (.clock, false)]

/-- The 24 line writes of one byte (R107). -/
def byteWrites (v : Byte) : List (Line × Bool) := (bitsMsbFirst v).flatMap bitWrites

/-- The line writes of a byte stream, in order (R101, R115). -/
def streamWrites (bytes : List Byte) : List (Line × Bool) := bytes.flatMap byteWrites

/-- The line write due at a position of the sequencer, given the stream byte there (R115). -/
def writeAt (byte : Byte) (p : TxPos) : Line × Bool :=
  if p.ph.val = 0 then (.data, byte.getLsbD p.j.val)
  else if p.ph.val = 1 then (.clock, true)
  else (.clock, false)

/-- The events of line writes that all succeed. -/
def succeeded (writes : List (Line × Bool)) : List Event :=
  writes.map (fun x => { line := x.1, level := x.2, ok := true })

/-- The level an event leaves its line at: a failed write leaves it unknown (10_state.md R15). -/
def Event.leaves (e : Event) : LineLevel := if e.ok then .driven e.level else .unknown

/-- DATA's level at each successful (CLOCK, 1) that comes when `counts` holds of CLOCK's level; `data` and `clock` are the
levels before the trace. A bit is `unknown` where DATA's level is. -/
def sampleBits (counts : LineLevel → Bool) (data clock : LineLevel) : List Event → List LineLevel
  | [] => []
  | e :: rest =>
    match e.line with
    | .data => sampleBits counts e.leaves clock rest
    | .clock =>
      if e.ok && e.level && counts clock then data :: sampleBits counts data e.leaves rest
      else sampleBits counts data e.leaves rest

/-- The bits of a trace by R113: one at every successful (CLOCK, 1). DATA's level before the trace is unknown. -/
def recoverBits (trace : List Event) : List LineLevel := sampleBits (fun _ => true) .unknown .unknown trace

/-- The bits of a trace by 10_state.md R16: one at every successful (CLOCK, 1) "that follows a state with CLOCK at 0".
`clock` is CLOCK's level before the trace; an unknown level is not a level of 0 (log 26). -/
def edgeBits (clock : LineLevel) (trace : List Event) : List LineLevel :=
  sampleBits (fun c => decide (c = .driven false)) .unknown clock trace

/-- Eight bits, the first most significant, as a byte. -/
def byteOfBits (b7 b6 b5 b4 b3 b2 b1 b0 : Bool) : Byte :=
  BitVec.ofNat 8 (128 * b7.toNat + 64 * b6.toNat + 32 * b5.toNat + 16 * b4.toNat
    + 8 * b3.toNat + 4 * b2.toNat + 2 * b1.toNat + b0.toNat)

/-- Bits packed eight to a byte, first bit most significant (R113); an incomplete last byte is dropped. -/
def packBits : List Bool → List Byte
  | b7 :: b6 :: b5 :: b4 :: b3 :: b2 :: b1 :: b0 :: rest => byteOfBits b7 b6 b5 b4 b3 b2 b1 b0 :: packBits rest
  | _ => []

/-- The levels of bits all of which are known; none where one is not. -/
def knownBits : List LineLevel → Option (List Bool)
  | [] => some []
  | .driven b :: rest => (knownBits rest).map (b :: ·)
  | .unknown :: _ => none

/-- Bits packed into bytes, where every bit is known (R16, R113). -/
def bytesOfBits (bits : List LineLevel) : Option (List Byte) := (knownBits bits).map packBits

/-- The bytes a trace sends, by R113. -/
def recoverBytes (trace : List Event) : Option (List Byte) := bytesOfBits (recoverBits trace)

/-- The bytes a trace sends, by the CLOCK edges of 10_state.md R16. -/
def edgeBytes (clock : LineLevel) (trace : List Event) : Option (List Byte) := bytesOfBits (edgeBits clock trace)

end Sys2Proof.Machine
end

