-- ==== Sys2Proof/Machine/Transmit.lean ====
section
/-! DEFINITION. The transmit stage as its rules' pseudocode has it (41_show_transmit.md R100, R103 to R108): bits, bytes
and frames as runs of line writes, and the whole stream of one SHOW, which NEW, SHOW and DISPOSE share. -/

namespace Sys2Proof.Machine

/-- SEND_BIT (R108): DATA to the bit, CLOCK high, CLOCK low. -/
def sendBit (b : Bool) (s : State) : Attempt :=
  (lineWrite .data b s).bind fun s1 => (lineWrite .clock true s1).bind fun s2 => lineWrite .clock false s2

/-- SEND_BYTE (R107): the eight bits, most significant first. -/
def sendByte (v : Byte) (s : State) : Attempt := forEach (bitsMsbFirst v) sendBit s

/-- Bytes in order. -/
def sendBytes (bytes : List Byte) (s : State) : Attempt := forEach bytes sendByte s

/-- The LED frame of entry `i` of the buffer as it stands (R104). -/
def sendEntry (i : Nat) (s : State) : Attempt := sendBytes (ledFrameBytes (s.pixel i)) s

/-- The stream of one SHOW (R100): TX to the start, start frame, the N LED frames in index order, end frame, TX to
IDLE. The first failed line write ends it (R111). -/
def transmit (s : State) : Attempt :=
  (sendBytes startFrameBytes { s with tx := .pos TxPos.start }).bind fun s1 =>
    (forEach (List.range s1.count) sendEntry s1).bind fun s2 =>
      (sendBytes endFrameBytes s2).bind fun s3 => .done { s3 with tx := .idle }

end Sys2Proof.Machine
end

