-- ==== Sys2Proof/Machine/Frames.lean ====
section
/-! DEFINITION. The FRAME rows: the three wire frames sent by themselves (41_show_transmit.md R103, R104, R105;
30_encoding.md R51). Within a SHOW they are parts of `transmit`. -/

namespace Sys2Proof.Machine

/-- The START frame: `00 00 00 00` (R103). -/
def execStartFrame (s : State) : Host.Outcome State Fault Refusal := (sendBytes startFrameBytes s).micro

/-- An LED frame: header and brightness5, blue, green, red (R104). -/
def execLed (brightness5 : BitVec 5) (blue green red : Byte) (s : State) : Host.Outcome State Fault Refusal :=
  (sendBytes (ledFrameBytes { brightness5 := brightness5.setWidth 8, blue := blue, green := green, red := red }) s).micro

/-- The END frame: `FF FF FF FF` (R105). -/
def execEndFrame (s : State) : Host.Outcome State Fault Refusal := (sendBytes endFrameBytes s).micro

end Sys2Proof.Machine
end

