-- ==== Sys2Proof/Machine/Lifecycle.lean ====
section
/-! DEFINITION. NEW and DISPOSE (42_lifecycle.md R130 to R135), with the opening and the release of the lines (R132,
R133). -/

namespace Sys2Proof.Machine

/-- LIFE becomes FAILED and LineAccessFailure is NEW's status (R134). -/
def State.failNew (s : State) (site : FailSite) : State :=
  { s with life := .failed }.returning (.lineAccessFailure site)

/-- LIFE ACTIVE with a zeroed buffer of `n` entries, whatever stood there before (R130, 10_state.md R24). -/
def State.allocate (s : State) (n : Nat) : State := { s with life := .active n, mem := [] }

/-- NEW (R130): open the lines, allocate the zeroed buffer, SHOW it. Opening writes no line and sets no level (R132). -/
def execNew (ledCount : Int) (s : State) : Host.Outcome State Fault Refusal :=
  match s.life with
  | .active _ => .refused .alreadyBuiltOrFailed
  | .failed => .refused .alreadyBuiltOrFailed
  | .unbuilt =>
    if ledCountAdmitted ledCount s.cfg.nMax then
      let opened : State := { s with openOk := s.openOk.ask.2 }
      if s.openOk.ask.1 then
        match transmit (opened.allocate ledCount.toNat) with
        | .done s1 => .next (s1.returning .ok)
        | .raised s1 site => .next (s1.failNew site)
      else .next (opened.failNew .openLines)
    else .refused .badLedCount

/-- RELEASE_LINES and the end of the controller (R133, 10_state.md R25): PB and N cease to exist, LIFE is UNBUILT and
both levels are unknown, whatever the environment answers. -/
def State.release (s : State) : State :=
  { s with
    releaseOk := s.releaseOk.ask.2
    life := .unbuilt
    mem := []
    tx := .idle
    lvlData := .unknown
    lvlClock := .unknown }

/-- DISPOSE's status: the SHOW's error if it had one (R131), else the release's (U14, log 3), else OK. -/
def disposeStatus (shown : Option FailSite) (released : Bool) : Status :=
  match shown with
  | some site => .lineAccessFailure site
  | none => if released then .ok else .lineAccessFailure .releaseLines

/-- DISPOSE (R131): clear, show once, not re-tried, then release in every case (R135). -/
def execDispose (s : State) : Host.Outcome State Fault Refusal :=
  match s.life with
  | .unbuilt => .refused .notActive
  | .failed => .refused .notActive
  | .active _ =>
    match transmit s.zeroBuffer with
    | .done s1 => .next (s1.release.returning (disposeStatus none s1.releaseOk.ask.1))
    | .raised s1 site => .next (s1.release.returning (disposeStatus (some site) s1.releaseOk.ask.1))

end Sys2Proof.Machine
end

