-- ==== Sys2Proof/Machine/Micro.lean ====
section
/-! DEFINITION. The INTERNAL rows: LINE_WRITE, SEND_BIT and SEND_BYTE run by themselves (41_show_transmit.md R107 to
R109). The host cannot issue them (00_scope.md R4); their rules give them no admission condition (log 7). -/

namespace Sys2Proof.Machine

/-- LINE_WRITE (R109). -/
def execLineWrite (line : Line) (level : Bool) (s : State) : Host.Outcome State Fault Refusal :=
  (lineWrite line level s).micro

/-- SEND_BIT (R108). -/
def execSendBit (b : Bool) (s : State) : Host.Outcome State Fault Refusal := (sendBit b s).micro

/-- SEND_BYTE (R107). -/
def execSendByte (v : Byte) (s : State) : Host.Outcome State Fault Refusal := (sendByte v s).micro

end Sys2Proof.Machine
end

