-- ==== Sys2Proof/Machine/Show.lean ====
section
/-! DEFINITION. SHOW (41_show_transmit.md R100) as one command, and the same SHOW at the finer grain of 20_memory.md R36,
one line write at a time from wherever TX stands. -/

namespace Sys2Proof.Machine

/-- SHOW (R100): the whole stream, or up to the first failed line write (R111). LIFE and the buffer stay. -/
def execShow (s : State) : Host.Outcome State Fault Refusal :=
  match s.life with
  | .unbuilt => .refused .notActive
  | .failed => .refused .notActive
  | .active _ =>
    match transmit s with
    | .done s1 => .next (s1.returning .ok)
    | .raised s1 site => .next (s1.returning (.lineAccessFailure site))

/-- The byte at a stream position of the current buffer (20_memory.md R31); none where no position exists. -/
def State.streamByte (s : State) (k : Nat) : Option Byte :=
  match s.life with
  | .unbuilt => none
  | .failed => none
  | .active _ => (encodeStream s.pixels)[k]?

/-- The next line write of a running SHOW at position `p` (R36, R115); the SHOW returns when TX becomes IDLE. -/
def resume (p : TxPos) (s : State) : Host.Outcome State Fault Refusal :=
  match s.streamByte p.k with
  | none => .fault (.noSuchStreamPosition p.k)
  | some byte =>
    match lineWrite (writeAt byte p).1 (writeAt byte p).2 s with
    | .done s1 => if s1.tx = .idle then .next (s1.returning .ok) else .next s1
    | .raised s1 site => .next (s1.returning (.lineAccessFailure site))

end Sys2Proof.Machine
end

