-- ==== Sys2Proof/Machine/Dispatch.lean ====
section
/-! DEFINITION. One arm per constructor of Instr, each a direct call of that instruction's meaning. -/

namespace Sys2Proof.Machine

def exec (i : Instr) (s : State) : Host.Outcome State Fault Refusal :=
  match i with
  | .new ledCount => Sys2Proof.Machine.execNew ledCount s
  | .setPixel index red green blue brightness => Sys2Proof.Machine.execSetPixel index red green blue brightness s
  | .clear => Sys2Proof.Machine.execClear s
  | .showBuffer => Sys2Proof.Machine.execShow s
  | .dispose => Sys2Proof.Machine.execDispose s
  | .startFrame => Sys2Proof.Machine.execStartFrame s
  | .led brightness5 blue green red => Sys2Proof.Machine.execLed brightness5 blue green red s
  | .endFrame => Sys2Proof.Machine.execEndFrame s
  | .sendByte v => Sys2Proof.Machine.execSendByte v s
  | .sendBit b => Sys2Proof.Machine.execSendBit b s
  | .lineWrite line level => Sys2Proof.Machine.execLineWrite line level s

end Sys2Proof.Machine
end

