-- ==== Sys2Proof/WellFormed.lean ====
section
/-! DEFINITION. Which instructions can be written at all: the integer operands must fit the 32-bit field `n` of the
command word (30_encoding.md R52, R53, R58). Every other operand's type already has the width of its field. -/

namespace Sys2Proof

/-- The range of a 32-bit two's complement field (R52): -2^31 to 2^31 - 1. -/
def fitsInt32 (x : Int) : Bool := decide (-2147483648 ≤ x) && decide (x ≤ 2147483647)

/-- An instruction whose operands fit their fields. -/
def WellFormed : Instr → Bool
  | .new ledCount => fitsInt32 ledCount
  | .setPixel index _ _ _ _ => fitsInt32 index
  | .clear => true
  | .showBuffer => true
  | .dispose => true
  | .startFrame => true
  | .led _ _ _ _ => true
  | .endFrame => true
  | .sendByte _ => true
  | .sendBit _ => true
  | .lineWrite _ _ => true

end Sys2Proof
end

