-- ==== Sys2Proof/Decode.lean ====
section
/-! DEFINITION. The decoder of command words and wire frames (30_encoding.md R50, R51, R58, R60), total and rejecting
by name, then the encoder, then the assembler's pseudo-forms (R65). -/

namespace Sys2Proof

/-- Why a word spells no instruction: a reserved `op` (R61), a 32-bit word that is none of the three frames of R51, or a
byte string that is neither a command word nor a frame (R68). -/
inductive DecodeError where
  | reservedOp (op : Byte)
  | notAFrame (w : FrameWord)
  | badLength (n : Nat)
  deriving DecidableEq, Repr

/-- An encoded instruction: a command word or a wire frame (R50). -/
inductive CodeWord where
  | command (w : CommandWord)
  | frame (w : FrameWord)
  deriving DecidableEq, Repr

/-- Where a frame stands in a stream; the position, not the pattern, says which frame is which (R63). -/
inductive FramePos where
  | first
  | led
  | last
  deriving DecidableEq, Repr

/-! ### Fields of the command word (R58) -/

/-- Field `op`, bits 127:120. -/
def opField (w : CommandWord) : Byte := w.extractLsb' 120 8

/-- Field `red`, bits 119:112. -/
def redField (w : CommandWord) : Byte := w.extractLsb' 112 8

/-- Field `green`, bits 111:104. -/
def greenField (w : CommandWord) : Byte := w.extractLsb' 104 8

/-- Field `blue`, bits 103:96. -/
def blueField (w : CommandWord) : Byte := w.extractLsb' 96 8

/-- Field `n`, bits 95:64. -/
def nField (w : CommandWord) : BitVec 32 := w.extractLsb' 64 32

/-- Field `brightness`, bits 63:0. -/
def brightnessField (w : CommandWord) : Binary64 := w.extractLsb' 0 64

/-- The integer in field `n`: `sext(n[31:0])` (R52, R53). -/
def signedN (w : CommandWord) : Int := (nField w).toInt

/-- Decode a command word by its `op` alone (R60); unused fields are ignored (R62); `op` 0x00 and 0x06 to 0xFF are
reserved (R61). -/
def decodeCommand (w : CommandWord) : Except DecodeError Instr :=
  if opField w = 0x01#8 then .ok (.new (signedN w))
  else if opField w = 0x02#8 then
    .ok (.setPixel (signedN w) (redField w) (greenField w) (blueField w) (brightnessField w))
  else if opField w = 0x03#8 then .ok .clear
  else if opField w = 0x04#8 then .ok .showBuffer
  else if opField w = 0x05#8 then .ok .dispose
  else .error (.reservedOp (opField w))

/-- The LED frame in a word whose header bits 31:29 are `111` (R51). -/
def decodeLed (w : FrameWord) : Except DecodeError Instr :=
  if w.extractLsb' 29 3 = 0b111#3 then
    .ok (.led (w.extractLsb' 24 5) (w.extractLsb' 16 8) (w.extractLsb' 8 8) (w.extractLsb' 0 8))
  else .error (.notAFrame w)

/-- Decode a frame at a known position of the stream (R51, R63). -/
def decodeFrameAt (p : FramePos) (w : FrameWord) : Except DecodeError Instr :=
  match p with
  | .first => if w = 0x00000000#32 then .ok .startFrame else .error (.notAFrame w)
  | .led => decodeLed w
  | .last => if w = 0xFFFFFFFF#32 then .ok .endFrame else .error (.notAFrame w)

/-- Decode a frame by its pattern alone. The pattern `FF FF FF FF` is both the end frame and the LED frame of a full
white entry (R63, U15); without a position the fully fixed row END is taken. DESIGN CHOICE, log 9; both send the same
bytes. -/
def decodeFrame (w : FrameWord) : Except DecodeError Instr :=
  if w = 0x00000000#32 then .ok .startFrame
  else if w = 0xFFFFFFFF#32 then .ok .endFrame
  else decodeLed w

/-- Decode an encoded instruction. -/
def decode : CodeWord → Except DecodeError Instr
  | .command w => decodeCommand w
  | .frame w => decodeFrame w

/-- The bits of a byte string, the first byte most significant (20_memory.md R34). -/
def joinBytes : List Byte → Nat → Nat
  | [], acc => acc
  | b :: bs, acc => joinBytes bs (acc * 256 + b.toNat)

/-- Decode any bytes: sixteen are a command word, four are a wire frame, anything else is rejected (R50, R68). -/
def decodeBytes (bs : List Byte) : Except DecodeError Instr :=
  if bs.length = 16 then decode (.command (BitVec.ofNat 128 (joinBytes bs 0)))
  else if bs.length = 4 then decode (.frame (BitVec.ofNat 32 (joinBytes bs 0)))
  else .error (.badLength bs.length)

/-- The instruction the decoder reads from an opcode-table word of `nbits` bits. The INTERNAL rows have no encoding
(R69), so no other width spells one. -/
def decodeTableWord (nbits w : Nat) : Option Instr :=
  if nbits = 128 then (decode (.command (BitVec.ofNat 128 w))).toOption
  else if nbits = 32 then (decode (.frame (BitVec.ofNat 32 w))).toOption
  else none

/-! ### The encoder (R51, R58, R60) -/

/-- Assemble a command word from its fields, `op` first (R58). -/
def commandWord (op red green blue : Byte) (n : BitVec 32) (brightness : Binary64) : CommandWord :=
  (op ++ red ++ green ++ blue ++ n ++ brightness : BitVec (8 + 8 + 8 + 8 + 32 + 64))

/-- Assemble an LED frame: header `111`, brightness5, blue, green, red (R51). -/
def ledWord (brightness5 : BitVec 5) (blue green red : Byte) : FrameWord :=
  (0b111#3 ++ brightness5 ++ blue ++ green ++ red : BitVec (3 + 5 + 8 + 8 + 8))

/-- The encoding of an instruction; unused fields are written as zero (R58), and the internal micro-operations have no
encoding (R69). -/
def encode : Instr → Option CodeWord
  | .new ledCount => some (.command (commandWord 0x01 0 0 0 (BitVec.ofInt 32 ledCount) 0))
  | .setPixel index red green blue brightness =>
    some (.command (commandWord 0x02 red green blue (BitVec.ofInt 32 index) brightness))
  | .clear => some (.command (commandWord 0x03 0 0 0 0 0))
  | .showBuffer => some (.command (commandWord 0x04 0 0 0 0 0))
  | .dispose => some (.command (commandWord 0x05 0 0 0 0 0))
  | .startFrame => some (.frame 0x00000000#32)
  | .led brightness5 blue green red => some (.frame (ledWord brightness5 blue green red))
  | .endFrame => some (.frame 0xFFFFFFFF#32)
  | .sendByte _ => none
  | .sendBit _ => none
  | .lineWrite _ _ => none

/-- Where in a stream a frame stands (R31, R50): the position at which `decodeFrameAt` reads it back. -/
def framePos : Instr → Option FramePos
  | .startFrame => some .first
  | .led _ _ _ _ => some .led
  | .endFrame => some .last
  | .new _ => none
  | .setPixel _ _ _ _ _ => none
  | .clear => none
  | .showBuffer => none
  | .dispose => none
  | .sendByte _ => none
  | .sendBit _ => none
  | .lineWrite _ _ => none

/-- The fields a command does not use, set to zero (R58, R62). -/
def zeroUnused (w : CommandWord) : CommandWord :=
  if opField w = 0x01#8 then commandWord 0x01 0 0 0 (nField w) 0
  else if opField w = 0x02#8 then w
  else commandWord (opField w) 0 0 0 0 0

/-! ### The assembler's pseudo-forms (R64, R65) -/

/-- `new(line_driver, led_count)`; the count is 8 when it is omitted. The `line_driver` argument has no field (R64). -/
def asmNew (ledCount : Option Int) : Instr := .new (ledCount.getD Config.ledCountDefault)

/-- `set_pixel(index, r, g, b, brightness)`; the brightness is 0.2 when it is omitted. -/
def asmSetPixel (index : Int) (r g b : Byte) (brightness : Option Binary64) : Instr :=
  .setPixel index r g b (brightness.getD Config.brightDefault)

end Sys2Proof
end

