-- ==== Sys2Proof/Machine/Fetch.lean ====
section
/-! DEFINITION. What the block does next (20_memory.md R36): go on with a running SHOW, run a frame handed to the
transmit stage, run the host's next command, or stay idle; and how a word is placed so that it comes next. -/

namespace Sys2Proof.Machine

/-- What comes next. `run` carries the state with the word taken from where it was waiting. -/
inductive Fetched where
  | resume (p : TxPos)
  | run (i : Instr) (s : State)
  | idle
  | refuse (r : Refusal)
  | bad (f : Fault)
  deriving DecidableEq, Repr

/-- A command word that is not decoded is refused as `reserved_op` (30_encoding.md R61). -/
def fetchCommand (w : CommandWord) (s : State) : Fetched :=
  match decodeCommand w with
  | .ok i => .run i s
  | .error _ => .refuse (.reservedOp (opField w))

/-- A word that is no frame stops the machine (log 22). -/
def fetchFrame (w : FrameWord) (s : State) : Fetched :=
  match decodeFrame w with
  | .ok i => .run i s
  | .error _ => .bad (.notAFrame w)

/-- While TX is not IDLE only the running SHOW goes on (41_show_transmit.md R117); then a frame in the slot (log 6);
then the host's next command; with none waiting the block is idle (60_exceptions.md R168, log 5). -/
def fetch (s : State) : Fetched :=
  match s.tx with
  | .pos p => .resume p
  | .idle =>
    match s.frameSlot with
    | some w => fetchFrame w { s with frameSlot := none }
    | none =>
      match s.hostCommands with
      | [] => .idle
      | w :: rest => fetchCommand w { s with hostCommands := rest }

/-- The state in which a command word is the next thing to run. -/
def State.withCommand (s : State) (w : CommandWord) : State :=
  { s with tx := .idle, frameSlot := none, hostCommands := w :: s.hostCommands }

/-- The state in which a frame word is the next thing to run. -/
def State.withFrame (s : State) (w : FrameWord) : State := { s with tx := .idle, frameSlot := some w }

end Sys2Proof.Machine
end

