-- ==== Sys2Proof/Machine/Step.lean ====
section
/-! DEFINITION. One step of the block (20_memory.md R36, D1): the next command, run to completion. -/

namespace Sys2Proof.Machine

/-- One step. -/
def step (s : State) : Host.Outcome State Fault Refusal :=
  match fetch s with
  | .resume p => resume p s
  | .run i s1 => exec i s1
  | .idle => .next s
  | .refuse r => .refused r
  | .bad f => .fault f

/-- A word of the opcode table placed where `fetch` takes the next instruction from: a 128-bit word is the host's next
command, a 32-bit word the frame in the slot; the INTERNAL rows have no word (logs 5 and 6). -/
def State.withFetchWord (s : State) (nbits w : Nat) : State :=
  if nbits = 128 then s.withCommand (BitVec.ofNat 128 w)
  else if nbits = 32 then s.withFrame (BitVec.ofNat 32 w)
  else s

end Sys2Proof.Machine
end

