-- ==== Sys2Proof/Safety.lean ====
section
/-! DEFINITION. What counts as a well-kept state and a safe run, in the terms the statements use. -/

namespace Sys2Proof.Machine

/-- LIFE = ACTIVE (10_state.md R13). -/
def State.isActive (s : State) : Bool :=
  match s.life with
  | .active _ => true
  | .unbuilt => false
  | .failed => false

/-- The sequencer stands at a line write of the stream of an existing controller, or is IDLE (R14). -/
def State.txInRange (s : State) : Prop :=
  ∀ p, s.tx = .pos p → s.isActive = true ∧ p.k < streamBytes s.count

/-- The invariant of the block: the buffer is in canonical form and lists only offsets that exist (20_memory.md R30),
every brightness5 is in 0..31 (10_state.md R18), N is within N_MAX (R12), and TX is IDLE or in range (R14). -/
structure State.Inv (s : State) : Prop where
  memCanonical : s.mem.wf = true
  memInside : ∀ c ∈ s.mem, c.1 < 4 * s.count
  brightnessRange : ∀ i, (s.pixel i).brightness5.toNat ≤ 31
  countAdmitted : s.count ≤ s.cfg.nMax
  txRange : s.txInRange

/-- A state between two commands of a host that has only ever issued commands (00_scope.md R4): no frame in the slot,
no SHOW running, and both levels unknown while no controller exists (10_state.md R15, R23, R25). -/
structure State.BetweenCommands (s : State) : Prop where
  noFrame : s.frameSlot = none
  txIdle : s.tx = .idle
  levelsUnbuilt : s.life = .unbuilt → s.lvlData = .unknown ∧ s.lvlClock = .unknown

/-- The next `p` line writes all succeed (10_state.md R20). -/
def Oracle.grants (o : Oracle) (p : Nat) : Prop := ∀ q, q < p → o.answerAt q = true

/-- The number of line writes of one SHOW of `n` entries (41_show_transmit.md R115). -/
def showWrites (n : Nat) : Nat := 24 * (4 * n + 8)

/-- The line writes of the SHOW of a state's buffer. -/
def State.showPlan (s : State) : List (Line × Bool) := streamWrites (encodeStream s.pixels)

/-- The all-off stream of `n` entries (41_show_transmit.md R106). -/
def allOffStream (n : Nat) : List Byte :=
  [0x00, 0x00, 0x00, 0x00] ++ (List.replicate n [0xE0, 0x00, 0x00, 0x00]).flatten ++ [0xFF, 0xFF, 0xFF, 0xFF]

/-- The level of a line after writes that all succeed: that of the last write to it, else what it was (R15). -/
def levelAfter (line : Line) (old : LineLevel) : List (Line × Bool) → LineLevel
  | [] => old
  | x :: xs => levelAfter line (if x.1 = line then .driven x.2 else old) xs

/-- TX after `p` successful line writes (R14). -/
def Tx.advanceBy (total : Nat) : Nat → Tx → Tx
  | 0, t => t
  | p + 1, t => Tx.advanceBy total p (t.advance total)

/-- The state after line writes that all succeed (41_show_transmit.md R109). -/
def State.wrote (s : State) (writes : List (Line × Bool)) : State :=
  { s with
    w := s.w ++ succeeded writes
    lvlData := levelAfter .data s.lvlData writes
    lvlClock := levelAfter .clock s.lvlClock writes
    tx := s.tx.advanceBy (streamBytes s.count) writes.length
    lineOk := s.lineOk.skip writes.length }

/-- The state after line writes that succeed and then one, of `level` on `line`, that fails: W ends with the failed
write, that line's level is unknown, TX is IDLE (41_show_transmit.md R109, R111; 60_exceptions.md R157). -/
def State.wroteThenFailed (s : State) (writes : List (Line × Bool)) (line : Line) (level : Bool) : State :=
  { s with
    w := s.w ++ succeeded writes ++ [{ line := line, level := level, ok := false }]
    lvlData := if line = .data then .unknown else levelAfter .data s.lvlData writes
    lvlClock := if line = .clock then .unknown else levelAfter .clock s.lvlClock writes
    tx := .idle
    lineOk := s.lineOk.skip (writes.length + 1) }

/-- The state after the line writes of a stream that all succeed and end a SHOW: levels DATA 1 and CLOCK 0, TX IDLE
(41_show_transmit.md R100, R112). -/
def State.showed (s : State) (bytes : List Byte) : State :=
  { s with
    w := s.w ++ succeeded (streamWrites bytes)
    lvlData := .driven true
    lvlClock := .driven false
    tx := .idle
    lineOk := s.lineOk.skip (24 * bytes.length) }

/-- The line writes of an instruction below the commands, from its rule: the bytes of a frame (41_show_transmit.md R103
to R105), the bits of a byte (R107), the three writes of a bit (R108), one write (R109). Commands have none here. -/
def microWrites : Instr → List (Line × Bool)
  | .startFrame => streamWrites [0x00, 0x00, 0x00, 0x00]
  | .led brightness5 blue green red => streamWrites [0b111#3 ++ brightness5, blue, green, red]
  | .endFrame => streamWrites [0xFF, 0xFF, 0xFF, 0xFF]
  | .sendByte v => byteWrites v
  | .sendBit b => [(.data, b), (.clock, true), (.clock, false)]
  | .lineWrite line level => [(line, level)]
  | .new _ => []
  | .setPixel _ _ _ _ _ => []
  | .clear => []
  | .showBuffer => []
  | .dispose => []

/-- The zero entry (10_state.md R24). -/
def Pixel.zero : Pixel := { brightness5 := 0, blue := 0, green := 0, red := 0 }

/-! ### Runs of a host (42_lifecycle.md R136, 70_reset_and_hazards.md R183) -/

/-- A run: the host issues command words one at a time, each when the one before has returned (20_memory.md R36). A
refused command leaves no run. -/
def hostRun : List CommandWord → State → Host.Outcome State Fault Refusal
  | [], s => .next s
  | w :: rest, s =>
    match step { s with hostCommands := [w] } with
    | .next t => hostRun rest t
    | .fault f => .fault f
    | .refused r => .refused r

/-- A run of these command words from `s` to `t` is complete: a DISPOSE has returned and LIFE = UNBUILT (R136). Power-on
is UNBUILT too, but no run is complete there, since no DISPOSE has returned. -/
structure RunComplete (s : State) (words : List CommandWord) (t : State) : Prop where
  returned : hostRun words s = .next t
  disposed : ∃ w ∈ words, decodeCommand w = .ok .dispose
  unbuilt : t.life = .unbuilt

/-- A run that ends here has faulted (R136). -/
def State.runFaulted (s : State) : Prop := s.life = .failed

/-- The host still owes a DISPOSE, so a run that stops here has not ended (R136, R183). -/
def State.owesDispose (s : State) : Prop := s.isActive = true

end Sys2Proof.Machine
end

