-- ==== Sys2Proof/Certificates/Slice0/Obligations.lean ====
section
/-! DEFINITION. The statements for the provers. Every statement holds in every state of the model, reachable or not,
unless it names an invariant as a premise; a statement about the environment's answers holds for every oracle. -/

open Sys2Proof Sys2Proof.Machine

/-! ### Encoding (30_encoding.md) -/

/-- Words written out from the layout of R58 and R51, with the instruction each stands for (95_test_vectors.md V70, V26,
V97, V93, V78, V20's entry as a frame). -/
def Obligations.KnownWordsDecode : Prop :=
  decodeCommand 0x01000000000000080000000000000000#128 = .ok (.new 8) ∧
  decodeCommand 0x01000000FFFFFFFF0000000000000000#128 = .ok (.new (-1)) ∧
  decodeCommand 0x02010203FFFFFFFF3FE0000000000000#128 = .ok (.setPixel (-1) 1 2 3 0x3FE0000000000000#64) ∧
  decodeCommand 0x03123456000000093FE0000000000000#128 = .ok .clear ∧
  decodeCommand 0x04000000000000000000000000000000#128 = .ok .showBuffer ∧
  decodeCommand 0x05000000000000000000000000000000#128 = .ok .dispose ∧
  decodeFrameAt .first 0x00000000#32 = .ok .startFrame ∧
  decodeFrameAt .led 0xE60000FF#32 = .ok (.led 6 0 0 255) ∧
  decodeFrameAt .led 0xEF563412#32 = .ok (.led 15 0x56 0x34 0x12) ∧
  decodeFrameAt .last 0xFFFFFFFF#32 = .ok .endFrame

/-- The command is selected by `op` alone, whatever the other 120 bits are (30_encoding.md section 1; the spec's own
decision D2). -/
def Obligations.CommandCodesSelect : Prop :=
  ∀ w : CommandWord,
    (w.extractLsb' 120 8 = 0x01#8 → decodeCommand w = .ok (.new (w.extractLsb' 64 32).toInt)) ∧
    (w.extractLsb' 120 8 = 0x02#8 → decodeCommand w = .ok (.setPixel (w.extractLsb' 64 32).toInt
      (w.extractLsb' 112 8) (w.extractLsb' 104 8) (w.extractLsb' 96 8) (w.extractLsb' 0 64))) ∧
    (w.extractLsb' 120 8 = 0x03#8 → decodeCommand w = .ok .clear) ∧
    (w.extractLsb' 120 8 = 0x04#8 → decodeCommand w = .ok .showBuffer) ∧
    (w.extractLsb' 120 8 = 0x05#8 → decodeCommand w = .ok .dispose)

/-- A word whose `op` is 0x00 or 0x06 to 0xFF is invalid to the decoder, and a step that meets it is refused, so it has
no next state, no line write and no status (the spec's own decision D2). -/
def Obligations.ReservedCodesRefused : Prop :=
  ∀ w : CommandWord, (opField w = 0x00#8 ∨ 6 ≤ (opField w).toNat) →
    decodeCommand w = .error (.reservedOp (opField w)) ∧
    ∀ (s : State) (rest : List CommandWord), s.tx = .idle → s.frameSlot = none → s.hostCommands = w :: rest →
      step s = .refused (.reservedOp (opField w))

/-- Unused fields decode as if they were zero (the spec's own decision D2); a SET_PIXEL word always carries its own brightness, and the default
0.2 is the assembler's. -/
def Obligations.UnusedFieldsIgnored : Prop :=
  (∀ w : CommandWord, decodeCommand w = decodeCommand (zeroUnused w)) ∧
  (∀ w : CommandWord, opField w = 0x02#8 → ∃ index red green blue,
    decodeCommand w = .ok (.setPixel index red green blue (brightnessField w))) ∧
  (∀ (index : Int) (r g b : Byte), asmSetPixel index r g b none = .setPixel index r g b 0x3FC999999999999A#64) ∧
  asmNew none = .new 8

/-- Decode and encode agree for every well-formed command, every operand at every value (the words are the spec's own
decision D2). -/
def Obligations.CommandsRoundTrip : Prop :=
  ∀ i : Instr, WellFormed i = true → i.isCommand = true →
    ∃ w, encode i = some (.command w) ∧ decodeCommand w = .ok i

/-- Decode and encode agree for every wire frame at its position in the stream; without a position too, but for the LED
frame whose bits are those of END (93_implementation_defined.md U15; without a position the model takes END, log 9). -/
def Obligations.FramesRoundTrip : Prop :=
  ∀ (i : Instr) (p : FramePos), framePos i = some p →
    ∃ w, encode i = some (.frame w) ∧ decodeFrameAt p w = .ok i ∧
      ((w ≠ 0xFFFFFFFF#32 ∨ p = .last) → decodeFrame w = .ok i)

/-- The other direction: a word that decodes is the encoding of its instruction once its unused fields are zero. -/
def Obligations.CommandWordsReencode : Prop :=
  ∀ (w : CommandWord) (i : Instr), decodeCommand w = .ok i →
    WellFormed i = true ∧ i.isCommand = true ∧ encode i = some (.command (zeroUnused w))

/-- The LED frame of a full white entry has the bits of END and does on the lines what END does; no LED frame has the bits
of START (R63). -/
def Obligations.FullWhiteFrameActsAsEnd : Prop :=
  encode (.led 31 255 255 255) = encode .endFrame ∧
  (∀ s, exec (.led 31 255 255 255) s = exec .endFrame s) ∧
  (∀ brightness5 blue green red, encode (.led brightness5 blue green red) ≠ encode .startFrame)

/-! ### The brightness operand (30_encoding.md R55, R56, R57, R67) -/

/-- R55: the clamp on the extended reals, with its consequences for -0.0, the infinities, -1.0 and 2.0. -/
def Obligations.ClampToUnitInterval : Prop :=
  clamp .negInf = some 0 ∧ clamp .posInf = some unitsInOne ∧
  (∀ x : Int, x < 0 → clamp (.finite x) = some 0) ∧
  (∀ x : Int, (unitsInOne : Int) < x → clamp (.finite x) = some unitsInOne) ∧
  (∀ x : Nat, x ≤ unitsInOne → clamp (.finite (x : Int)) = some x) ∧
  clamp (datum 0x8000000000000000#64) = some 0 ∧
  datum 0xFFF0000000000000#64 = .negInf ∧ datum 0x7FF0000000000000#64 = .posInf ∧
  datum 0x3FF0000000000000#64 = .finite (unitsInOne : Int) ∧
  clamp (datum 0xBFF0000000000000#64) = clamp (datum 0x0000000000000000#64) ∧
  clamp (datum 0x4000000000000000#64) = clamp (datum 0x3FF0000000000000#64)

/-- The default instance of Q is the floor of the exact product, by its thresholds; it reaches 31 exactly for operands of
at least 1, gives 0 below 1/31, and is monotone (reading the product as exact is the spec's own decision D5). -/
def Obligations.QuantiserThresholds : Prop :=
  (∀ (b : Binary64) (x : Nat), clamp (datum b) = some x →
    ∃ level, quantise .exact b = some level ∧ level.toNat = 31 * x / unitsInOne ∧
      (∀ k, k ≤ 30 → (level.toNat = k ↔ k * unitsInOne ≤ 31 * x ∧ 31 * x < (k + 1) * unitsInOne)) ∧
      (level.toNat = 31 ↔ datum b = .posInf ∨ ∃ u : Int, datum b = .finite u ∧ (unitsInOne : Int) ≤ u) ∧
      (∀ u : Int, datum b = .finite u → 31 * u < (unitsInOne : Int) → level.toNat = 0)) ∧
  (∀ (b c : Binary64) (x y : Nat) (lb lc : Byte), clamp (datum b) = some x → clamp (datum c) = some y → x ≤ y →
    quantise .exact b = some lb → quantise .exact c = some lc → lb.toNat ≤ lc.toNat)

/-- The rows of the table of R67: k, the smallest binary64 operand with Q = k, and whether the binary64-product
instance differs just below it. -/
def Sys2Proof.Machine.thresholdTable : List (Nat × Binary64 × Bool) :=
  [(1, 0x3FA0842108421085#64, true), (2, 0x3FB0842108421085#64, true), (3, 0x3FB8C6318C6318C7#64, true),
   (4, 0x3FC0842108421085#64, true), (5, 0x3FC4A5294A5294A6#64, true), (6, 0x3FC8C6318C6318C7#64, true),
   (7, 0x3FCCE739CE739CE8#64, true), (8, 0x3FD0842108421085#64, true), (9, 0x3FD294A5294A5295#64, false),
   (10, 0x3FD4A5294A5294A6#64, true), (11, 0x3FD6B5AD6B5AD6B6#64, false), (12, 0x3FD8C6318C6318C7#64, true),
   (13, 0x3FDAD6B5AD6B5AD7#64, false), (14, 0x3FDCE739CE739CE8#64, true), (15, 0x3FDEF7BDEF7BDEF8#64, false),
   (16, 0x3FE0842108421085#64, true)] ++
  [(17, 0x3FE18C6318C6318D#64, true), (18, 0x3FE294A5294A5295#64, false), (19, 0x3FE39CE739CE739D#64, false),
   (20, 0x3FE4A5294A5294A6#64, true), (21, 0x3FE5AD6B5AD6B5AE#64, true), (22, 0x3FE6B5AD6B5AD6B6#64, false),
   (23, 0x3FE7BDEF7BDEF7BE#64, false), (24, 0x3FE8C6318C6318C7#64, true), (25, 0x3FE9CE739CE739CF#64, true),
   (26, 0x3FEAD6B5AD6B5AD7#64, false), (27, 0x3FEBDEF7BDEF7BDF#64, false), (28, 0x3FECE739CE739CE8#64, true),
   (29, 0x3FEDEF7BDEF7BDF0#64, true), (30, 0x3FEEF7BDEF7BDEF8#64, false), (31, 0x3FF0000000000000#64, false)]

/-- The threshold table of R67 (b) and (c): at each threshold and one unit in the last place below it, under both
instances of Q (the spec's own computation). -/
def Obligations.ThresholdTableHolds : Prop :=
  ∀ row ∈ thresholdTable,
    quantise .exact row.2.1 = some (BitVec.ofNat 8 row.1) ∧
    quantise .exact (row.2.1 - 1) = some (BitVec.ofNat 8 (row.1 - 1)) ∧
    quantise .product64 row.2.1 = some (BitVec.ofNat 8 row.1) ∧
    quantise .product64 (row.2.1 - 1) = some (BitVec.ofNat 8 (if row.2.2 then row.1 else row.1 - 1))

/-- The two instances of Q agree on every binary64 input except the 19 just below a marked threshold (the spec's own
computation, 30_encoding.md R67 (c); the model's rounding of subnormal products is exact, log 25). -/
def Obligations.InstancesDifferOnlyAtNineteen : Prop :=
  (thresholdTable.filter (fun row => row.2.2)).length = 19 ∧
  ∀ b : Binary64, quantise .exact b ≠ quantise .product64 b ↔
    b ∈ (thresholdTable.filter (fun row => row.2.2)).map (fun row => row.2.1 - 1)

/-- R57: for a brightness5 in 0..31 the header byte's OR is a sum, its top bits are `111` and its low bits the
brightness. -/
def Obligations.HeaderByteIsASum : Prop :=
  ∀ p : Pixel, p.brightness5.toNat ≤ 31 →
    ∃ header, ledFrameBytes p = [header, p.blue, p.green, p.red] ∧
      header = 0xE0 ||| p.brightness5 ∧ header = 0xE0 + p.brightness5 ∧ 0xE0 ≤ header.toNat ∧
      header.extractLsb' 5 3 = 0b111#3 ∧ (header.extractLsb' 0 5).toNat = p.brightness5.toNat

/-! ### The buffer (10_state.md, 20_memory.md, 40_buffer_ops.md) -/

/-- The flat view (20_memory.md section 1) is the entries' fields in wire order, every offset 0 .. 4*N-1 is an ordinary byte, and no other
offset exists. That an access to another offset answers the error noSuchOffset is the model's choice, log 11. -/
def Obligations.FlatViewOfEntries : Prop :=
  ∀ s : State,
    (∀ i, i < s.count → s.memRead (4 * i) = .ok (s.pixel i).brightness5 ∧
      s.memRead (4 * i + 1) = .ok (s.pixel i).blue ∧ s.memRead (4 * i + 2) = .ok (s.pixel i).green ∧
      s.memRead (4 * i + 3) = .ok (s.pixel i).red) ∧
    (∀ a v, 4 * s.count ≤ a → s.memRead a = .error (.noSuchOffset a) ∧ s.memWrite a v = .error (.noSuchOffset a)) ∧
    (∀ a v, s.mem.wf = true → a < 4 * s.count →
      ∃ t, s.memWrite a v = .ok t ∧ t = { s with mem := t.mem } ∧ t.mem.wf = true ∧ t.memRead a = .ok v ∧
        ∀ a', a' ≠ a → t.memRead a' = s.memRead a')

/-- Canonical buffers that read alike are the same data. -/
def Obligations.CanonicalBuffersAreEqual : Prop :=
  ∀ m m' : Memory, m.wf = true → m'.wf = true → (∀ a, m.read a = m'.read a) → m = m'

/-- R83: SET_PIXEL with a valid index stores red, green and blue verbatim and the quantised brightness, and changes
nothing else; with an index outside [0, N) it raises IndexOutOfRange and changes no entry. -/
def Obligations.SetPixelReadsBack : Prop :=
  ∀ (s : State) (n : Nat) (index : Int) (r g b : Byte) (brightness : Binary64), s.life = .active n → s.mem.wf = true →
    (∀ x, 0 ≤ index → index < (n : Int) → clamp (datum brightness) = some x →
      ∃ t level, exec (.setPixel index r g b brightness) s = .next t ∧
        t.pixel index.toNat = { brightness5 := level, blue := b, green := g, red := r } ∧
        level.toNat = quantiseUnits s.cfg.quantiser x ∧
        (s.cfg.quantiser = .exact → level.toNat = 31 * x / unitsInOne) ∧
        t = { s with mem := t.mem, reply := some .ok } ∧
        (∀ a, a < 4 * index.toNat ∨ 4 * index.toNat + 4 ≤ a → t.mem.read a = s.mem.read a) ∧
        (∀ j, j ≠ index.toNat → t.pixel j = s.pixel j)) ∧
    ((index < 0 ∨ (n : Int) ≤ index) →
      exec (.setPixel index r g b brightness) s = .next { s with reply := some (.indexOutOfRange index) })

/-- The checks of SET_PIXEL in order (that the index precedes the NaN is the spec's own decision D10). Outside ACTIVE it is refused whatever its operands; a bad index raises
IndexOutOfRange whatever the brightness, NaN included, and with N = 0 every index is bad; only then is a NaN refused. -/
def Obligations.SetPixelCheckOrder : Prop :=
  ∀ (s : State) (index : Int) (r g b : Byte) (brightness : Binary64),
    (s.isActive = false → exec (.setPixel index r g b brightness) s = .refused .notActive) ∧
    (∀ n, s.life = .active n →
      ((index < 0 ∨ (n : Int) ≤ index) →
        exec (.setPixel index r g b brightness) s = .next { s with reply := some (.indexOutOfRange index) }) ∧
      (n = 0 →
        exec (.setPixel index r g b brightness) s = .next { s with reply := some (.indexOutOfRange index) }) ∧
      (0 ≤ index → index < (n : Int) → datum brightness = .nan →
        exec (.setPixel index r g b brightness) s = .refused .nanBrightness))

/-- Issuing the same SET_PIXEL twice leaves the same state as once (20_memory.md R38). -/
def Obligations.SetPixelIdempotent : Prop :=
  ∀ (s t : State) (index : Int) (r g b : Byte) (brightness : Binary64), s.mem.wf = true →
    exec (.setPixel index r g b brightness) s = .next t → exec (.setPixel index r g b brightness) t = .next t

/-- R81: CLEAR zeroes every byte of the buffer and does nothing else; it is idempotent; the stream after it is the all-off
stream; in a well-kept state the buffer is the one NEW leaves; outside ACTIVE it is refused. -/
def Obligations.ClearZeroesTheBuffer : Prop :=
  ∀ s : State, (s.isActive = false → exec .clear s = .refused .notActive) ∧
    ∀ n, s.life = .active n →
      ∃ t, exec .clear s = .next t ∧ t = { s with mem := t.mem, reply := some .ok } ∧
        (∀ i, i < n → t.pixel i = Pixel.zero) ∧
        (∀ a, a < 4 * n → t.mem.read a = 0) ∧ (∀ a, 4 * n ≤ a → t.mem.read a = s.mem.read a) ∧
        (s.Inv → t.mem = []) ∧ encodeStream t.pixels = allOffStream n ∧ exec .clear t = .next t

/-- The buffer commands make no line write, change no level, no TX, no LIFE and no parameter (R38, R39): only the
buffer's bytes and the status differ. -/
def Obligations.BufferCommandsDoNoIO : Prop :=
  ∀ (s t : State),
    (∀ index r g b brightness, exec (.setPixel index r g b brightness) s = .next t →
      t = { s with mem := t.mem, reply := t.reply }) ∧
    (exec .clear s = .next t → t = { s with mem := t.mem, reply := t.reply })

/-! ### SHOW and the stream (20_memory.md, 41_show_transmit.md) -/

/-- SHOW while ACTIVE, when the environment lets its writes succeed: W gains the line writes of the whole stream, DATA
ends 1 and CLOCK 0, TX is IDLE, the status is OK, and nothing else changes (R100, R112). Outside ACTIVE it is refused. -/
def Obligations.ShowSendsTheWholeStream : Prop :=
  ∀ s : State, (s.isActive = false → exec .showBuffer s = .refused .notActive) ∧
    ∀ n, s.life = .active n → s.lineOk.grants (24 * (4 * n + 8)) →
      exec .showBuffer s = .next
        { s with
          w := s.w ++ succeeded (streamWrites (encodeStream s.pixels))
          lvlData := .driven true
          lvlClock := .driven false
          tx := .idle
          lineOk := s.lineOk.skip (24 * (4 * n + 8))
          reply := some .ok }

/-- SHOW stops at its first failed line write (60_exceptions.md section 3). W ends with a strict prefix of the stream's writes and then the
failed one; TX is IDLE; LIFE, N and the buffer are unchanged; the status is LineAccessFailure. The level of the line
whose write failed is unknown, the spec's own decision D8, and the other line keeps the level last written to it. -/
def Obligations.ShowStopsAtFirstFailure : Prop :=
  ∀ (s : State) (n p : Nat) (line : Line) (level : Bool), s.life = .active n →
    (streamWrites (encodeStream s.pixels))[p]? = some (line, level) → s.lineOk.grants p →
    s.lineOk.answerAt p = false →
    ∃ t, exec .showBuffer s = .next t ∧
      t = { s with
            w := s.w ++ succeeded ((streamWrites (encodeStream s.pixels)).take p) ++
              [{ line := line, level := level, ok := false }]
            lvlData := if line = .data then .unknown
              else levelAfter .data s.lvlData ((streamWrites (encodeStream s.pixels)).take p)
            lvlClock := if line = .clock then .unknown
              else levelAfter .clock s.lvlClock ((streamWrites (encodeStream s.pixels)).take p)
            tx := .idle
            lineOk := s.lineOk.skip (p + 1)
            reply := some (.lineAccessFailure (.write line level)) } ∧
      t.life = .active n ∧ t.mem = s.mem ∧ p < 24 * (4 * n + 8)

/-- Recovery (60_exceptions.md R156): whatever a SHOW did, the next SHOW with a healthy line sends the whole stream of the
same buffer from the start. -/
def Obligations.ShowAgainResendsEverything : Prop :=
  ∀ (s t : State) (n : Nat), s.life = .active n → exec .showBuffer s = .next t → t.lineOk.grants (24 * (4 * n + 8)) →
    ∃ u, exec .showBuffer t = .next u ∧ u.reply = some .ok ∧
      u.w = t.w ++ succeeded (streamWrites (encodeStream s.pixels))

/-- R102: length and framing of the stream of any buffer. -/
def Obligations.StreamLengthAndFraming : Prop :=
  ∀ buffer : List Pixel,
    (encodeStream buffer).length = 4 + 4 * buffer.length + 4 ∧
    (encodeStream buffer).take 4 = [0x00, 0x00, 0x00, 0x00] ∧
    (encodeStream buffer).drop (4 + 4 * buffer.length) = [0xFF, 0xFF, 0xFF, 0xFF]

/-- R31: the content of every stream position; position k of the LED part carries buffer offset k - 4, with the header
ORed in where the offset is a multiple of 4. -/
def Obligations.StreamPositions : Prop :=
  ∀ s : State, (encodeStream s.pixels).length = 4 + 4 * s.count + 4 ∧
    ∀ k, k < 4 + 4 * s.count + 4 →
      (encodeStream s.pixels)[k]? = some
        (if k < 4 then 0x00
         else if k < 4 + 4 * s.count then
           (if (k - 4) % 4 = 0 then 0xE0 ||| s.mem.read (k - 4) else s.mem.read (k - 4))
         else 0xFF)

/-- The stream of an all-zero buffer is the all-off stream (R106). -/
def Obligations.ZeroBufferIsAllOff : Prop :=
  ∀ s : State, (∀ i, i < s.count → s.pixel i = Pixel.zero) → encodeStream s.pixels = allOffStream s.count

/-- A completed SHOW makes exactly 24 * (4*N + 8) line writes, and write number p has the closed form in k, j, ph
(41_show_transmit.md, properties of the transmission, the spec's own inference). -/
def Obligations.LineWriteClosedForm : Prop :=
  ∀ s : State,
    (streamWrites (encodeStream s.pixels)).length = 24 * (4 * s.count + 8) ∧
    (∀ p, p < 24 * (4 * s.count + 8) →
      ∃ byte, (encodeStream s.pixels)[p / 24]? = some byte ∧
        (streamWrites (encodeStream s.pixels))[p]? = some
          (if p % 3 = 0 then (.data, byte.getLsbD (7 - (p % 24) / 3))
           else if p % 3 = 1 then (.clock, true) else (.clock, false))) ∧
    (∀ n t, s.life = .active n → exec .showBuffer s = .next t → t.reply = some .ok →
      t.w = s.w ++ succeeded (streamWrites (encodeStream s.pixels)))

/-- TX never skips and never moves back (10_state.md section 4, the spec's own decision D3): one write advances the
linear position by one, and TX becomes IDLE exactly after the last position of the stream. -/
def Obligations.SequencerAdvancesByOne : Prop :=
  ∀ (p : TxPos) (total : Nat), p.k < total →
    (p.next total = .idle ↔ p.linear + 1 = 24 * total) ∧
    (∀ q, p.next total = .pos q → q.linear = p.linear + 1 ∧ q.k < total) ∧
    TxPos.start.linear = 0

/-- The bytes recovered from what a completed SHOW appends to W are exactly the stream of the buffer
(41_show_transmit.md, the spec's own inference). -/
def Obligations.BytesRecoveredFromTrace : Prop :=
  ∀ (s : State) (n : Nat), s.life = .active n → s.lineOk.grants (24 * (4 * n + 8)) →
    ∃ t trace, exec .showBuffer s = .next t ∧ t.w = s.w ++ trace ∧ trace.length = 24 * (4 * n + 8) ∧
      recoverBytes trace = some (encodeStream s.pixels)

/-- A SHOW run to completion and the same SHOW made one line write at a time from TX = (0, 7, 0) end in the same state,
whatever the environment answers (20_memory.md section 4). That a step with TX not IDLE is one line write of the running
SHOW, beside the step that is a whole command, is the model's reading, log 4 (DEDUCED). -/
def Obligations.OneWriteAtATimeIsTheSameShow : Prop :=
  ∀ (s : State) (n : Nat), s.life = .active n →
    ∃ k, 0 < k ∧ k ≤ 24 * (4 * n + 8) ∧
      Host.Core.run Sys2Proof.core k { s with tx := .pos TxPos.start } = exec .showBuffer s

/-! ### Frames and micro-operations (41_show_transmit.md R103 to R109) -/

/-- Every instruction below the commands, when the environment lets its writes succeed, makes exactly the writes of its
rule, advances TX once a write, and changes nothing else. Run by themselves, with TX IDLE they leave it IDLE: the
model's choice, log 7. -/
def Obligations.MicroOperationsComplete : Prop :=
  ∀ (i : Instr) (s : State), i.isCommand = false → s.lineOk.grants (microWrites i).length →
    exec i s = .next
      { s with
        w := s.w ++ succeeded (microWrites i)
        lvlData := levelAfter .data s.lvlData (microWrites i)
        lvlClock := levelAfter .clock s.lvlClock (microWrites i)
        tx := s.tx.advanceBy (streamBytes s.count) (microWrites i).length
        lineOk := s.lineOk.skip (microWrites i).length }

/-- Every instruction below the commands stops at its first failed write, with LineAccessFailure (its status, when
run by itself, is the model's choice, log 7). -/
def Obligations.MicroOperationsStopAtFailure : Prop :=
  ∀ (i : Instr) (s : State) (p : Nat) (line : Line) (level : Bool), i.isCommand = false →
    (microWrites i)[p]? = some (line, level) → s.lineOk.grants p → s.lineOk.answerAt p = false →
    exec i s = .next ((s.wroteThenFailed ((microWrites i).take p) line level).returning
      (.lineAccessFailure (.write line level)))

/-- One line write, on lines whose logical ids are 0 and 1 (D15). The event joins W in both cases; on success the line takes the level and TX advances; on failure
the line's level is unknown, TX is IDLE and LineAccessFailure is raised; the other line keeps its level (that a failed write leaves `unknown` is the spec's own decision
D8; the status of a write run by itself is the model's choice, log 7). -/
def Obligations.LineWriteEffect : Prop :=
  Line.data.id = 0 ∧ Line.clock.id = 1 ∧
  ∀ (s : State) (line other : Line) (level : Bool), other ≠ line →
    (s.lineOk.answerAt 0 = true →
      ∃ t, exec (.lineWrite line level) s = .next t ∧ t.lvl line = .driven level ∧ t.lvl other = s.lvl other ∧
        t = { s with
              w := s.w ++ [{ line := line, level := level, ok := true }]
              lvlData := t.lvlData
              lvlClock := t.lvlClock
              tx := s.tx.advance (streamBytes s.count)
              lineOk := s.lineOk.skip 1 }) ∧
    (s.lineOk.answerAt 0 = false →
      ∃ t, exec (.lineWrite line level) s = .next t ∧ t.lvl line = .unknown ∧ t.lvl other = s.lvl other ∧
        t = { s with
              w := s.w ++ [{ line := line, level := level, ok := false }]
              lvlData := t.lvlData
              lvlClock := t.lvlClock
              tx := .idle
              lineOk := s.lineOk.skip 1
              reply := some (.lineAccessFailure (.write line level)) })

/-- SEND_BIT is exactly three line writes, DATA to the bit, CLOCK high, CLOCK low; each of the three can be the one that
fails, and then the later ones are not made (41_show_transmit.md, internal micro-operations). Run by itself it is admitted
in every LIFE and a failure is its status: the model's choice, log 7. -/
def Obligations.SendBitIsThreeWrites : Prop :=
  ∀ (s : State) (b : Bool),
    (s.lineOk.grants 3 →
      ∃ t, exec (.sendBit b) s = .next t ∧
        t.w = s.w ++ [{ line := .data, level := b, ok := true }, { line := .clock, level := true, ok := true },
          { line := .clock, level := false, ok := true }] ∧
        t.lvlData = .driven b ∧ t.lvlClock = .driven false ∧
        t.tx = ((s.tx.advance (streamBytes s.count)).advance (streamBytes s.count)).advance (streamBytes s.count)) ∧
    (s.lineOk.answerAt 0 = false →
      ∃ t, exec (.sendBit b) s = .next t ∧ t.w = s.w ++ [{ line := .data, level := b, ok := false }] ∧
        t.reply = some (.lineAccessFailure (.write .data b))) ∧
    (s.lineOk.grants 1 → s.lineOk.answerAt 1 = false →
      ∃ t, exec (.sendBit b) s = .next t ∧
        t.w = s.w ++ [{ line := .data, level := b, ok := true }, { line := .clock, level := true, ok := false }] ∧
        t.reply = some (.lineAccessFailure (.write .clock true))) ∧
    (s.lineOk.grants 2 → s.lineOk.answerAt 2 = false →
      ∃ t, exec (.sendBit b) s = .next t ∧
        t.w = s.w ++ [{ line := .data, level := b, ok := true }, { line := .clock, level := true, ok := true },
          { line := .clock, level := false, ok := false }] ∧
        t.reply = some (.lineAccessFailure (.write .clock false)))

/-- A byte is sent as bit 7, 6, 5, 4, 3, 2, 1, 0 (20_memory.md section 2). That SEND_BYTE run by itself is admitted in every
LIFE is the model's choice, log 7. -/
def Obligations.BytesAreSentMsbFirst : Prop :=
  ∀ (s : State) (v : Byte), s.lineOk.grants 24 →
    ∃ t trace, exec (.sendByte v) s = .next t ∧ t.w = s.w ++ trace ∧
      recoverBits trace = [7, 6, 5, 4, 3, 2, 1, 0].map (fun j => .driven (v.getLsbD j))

/-! ### NEW and DISPOSE (42_lifecycle.md) -/

/-- R24: NEW from UNBUILT with an admitted count, when the open and the writes succeed: LIFE ACTIVE with N = led_count, a
zeroed buffer, one SHOW of the all-off stream, DATA 1 and CLOCK 0, TX IDLE, status OK, and nothing else changes. -/
def Obligations.NewBuildsAndDarkens : Prop :=
  ∀ (s : State) (ledCount : Int), s.life = .unbuilt → 0 ≤ ledCount → ledCount ≤ (s.cfg.nMax : Int) →
    s.openOk.answerAt 0 = true → s.lineOk.grants (24 * (4 * ledCount.toNat + 8)) →
    ∃ t, exec (.new ledCount) s = .next t ∧
      t = { s with
            life := .active ledCount.toNat
            mem := []
            w := s.w ++ succeeded (streamWrites (allOffStream ledCount.toNat))
            lvlData := .driven true
            lvlClock := .driven false
            tx := .idle
            lineOk := s.lineOk.skip (24 * (4 * ledCount.toNat + 8))
            openOk := s.openOk.skip 1
            reply := some .ok } ∧
      (∀ i, t.pixel i = Pixel.zero)

/-- A NEW whose open fails makes no line write, and one whose SHOW fails stops at the failed write; both leave LIFE
FAILED with LineAccessFailure as the status; in FAILED every command is refused (the spec's own
decision D12). -/
def Obligations.FailedNewIsFinal : Prop :=
  (∀ (s : State) (ledCount : Int), s.life = .unbuilt → 0 ≤ ledCount → ledCount ≤ (s.cfg.nMax : Int) →
    (s.openOk.answerAt 0 = false →
      exec (.new ledCount) s = .next
        { s with life := .failed, openOk := s.openOk.skip 1, reply := some (.lineAccessFailure .openLines) }) ∧
    (∀ (p : Nat) (line : Line) (level : Bool), s.openOk.answerAt 0 = true →
      (streamWrites (allOffStream ledCount.toNat))[p]? = some (line, level) → s.lineOk.grants p →
      s.lineOk.answerAt p = false →
      ∃ t, exec (.new ledCount) s = .next t ∧ t.life = .failed ∧ t.tx = .idle ∧ t.lvl line = .unknown ∧
        t.reply = some (.lineAccessFailure (.write line level)) ∧
        t.w = s.w ++ succeeded ((streamWrites (allOffStream ledCount.toNat)).take p) ++
          [{ line := line, level := level, ok := false }])) ∧
  (∀ (i : Instr) (s : State), i.isCommand = true → s.life = .failed → ∃ r, exec i s = .refused r)

/-- DISPOSE while ACTIVE, when the writes of its SHOW succeed: the all-off stream is sent and ends W, the controller
ceases to exist, the levels are unknown (42_lifecycle.md, the spec's own decision D19). The status is OK, or
LineAccessFailure where the environment fails the release (93_implementation_defined.md U14; the model reports it, log 3). -/
def Obligations.DisposeDarkensAndReleases : Prop :=
  ∀ (s : State) (n : Nat), s.life = .active n → s.lineOk.grants (24 * (4 * n + 8)) →
    ∃ t, exec .dispose s = .next t ∧
      t = { s with
            life := .unbuilt
            mem := []
            w := s.w ++ succeeded (streamWrites (allOffStream n))
            lvlData := .unknown
            lvlClock := .unknown
            tx := .idle
            lineOk := s.lineOk.skip (24 * (4 * n + 8))
            releaseOk := s.releaseOk.skip 1
            reply := some (if s.releaseOk.answerAt 0 then .ok else .lineAccessFailure .releaseLines) } ∧
      t.w.drop (t.w.length - 24 * (4 * n + 8)) = succeeded (streamWrites (allOffStream n))

/-- Whatever the environment answers, DISPOSE of an ACTIVE controller returns with the lines released and LIFE
UNBUILT; a failed SHOW stops at the failed write and is reported, and does not stop the release (42_lifecycle.md, DISPOSE,
the spec's own decision D19). -/
def Obligations.DisposeAlwaysReleases : Prop :=
  ∀ (s : State) (n : Nat), s.life = .active n →
    ∃ t, exec .dispose s = .next t ∧ t.life = .unbuilt ∧ t.mem = [] ∧ t.tx = .idle ∧ t.lvlData = .unknown ∧
      t.lvlClock = .unknown ∧ t.releaseOk = s.releaseOk.skip 1 ∧
      ∀ (p : Nat) (line : Line) (level : Bool), (streamWrites (allOffStream n))[p]? = some (line, level) →
        s.lineOk.grants p → s.lineOk.answerAt p = false →
        t.reply = some (.lineAccessFailure (.write line level)) ∧
        t.w = s.w ++ succeeded ((streamWrites (allOffStream n)).take p) ++
          [{ line := line, level := level, ok := false }]

/-- A NEW after a DISPOSE does what it does after power-on, except that W keeps its history (10_state.md, the spec's own
decisions D7 and D19). -/
def Obligations.NewAfterDisposeIsAsAtPowerOn : Prop :=
  ∀ s t : State, exec .dispose s = .next t →
    (t.life = State.reset.life ∧ t.mem = State.reset.mem ∧ t.tx = State.reset.tx ∧
      t.lvlData = State.reset.lvlData ∧ t.lvlClock = State.reset.lvlClock) ∧
    ∀ ledCount : Int,
      (∃ r, exec (.new ledCount) { t with w := [] } = .refused r ∧ exec (.new ledCount) t = .refused r) ∨
      (∃ u, exec (.new ledCount) { t with w := [] } = .next u ∧
        exec (.new ledCount) t = .next { u with w := t.w ++ u.w })

/-! ### Lifecycle, statuses and refusals (10_state.md R13, 60_exceptions.md) -/

/-- The transition table of 10_state.md (the spec's own decision D7): the next states of every command, by the LIFE it starts from. -/
def Obligations.LifecycleTransitions : Prop :=
  ∀ (i : Instr) (s t : State), i.isCommand = true → exec i s = .next t →
    (∃ ledCount, i = .new ledCount ∧ s.life = .unbuilt ∧
      ((t.life = .active ledCount.toNat ∧ t.reply = some .ok) ∨
       (t.life = .failed ∧ ∃ site, t.reply = some (.lineAccessFailure site)))) ∨
    (∃ n, s.life = .active n ∧
      ((i = .dispose ∧ t.life = .unbuilt) ∨
       (i ≠ .dispose ∧ (∀ ledCount, i ≠ .new ledCount) ∧ t.life = .active n)))

/-- Exactly when a command is refused, and why (60_exceptions.md, the spec's own decisions D4 and D7); no other reason occurs in a command that decodes. -/
def Obligations.RefusedExactlyWhen : Prop :=
  ∀ (i : Instr) (s : State), i.isCommand = true →
    (exec i s = .refused .notActive ↔ (∀ ledCount, i ≠ .new ledCount) ∧ s.isActive = false) ∧
    (exec i s = .refused .alreadyBuiltOrFailed ↔ (∃ ledCount, i = .new ledCount) ∧ s.life ≠ .unbuilt) ∧
    (exec i s = .refused .badLedCount ↔
      ∃ ledCount, i = .new ledCount ∧ s.life = .unbuilt ∧ (ledCount < 0 ∨ (s.cfg.nMax : Int) < ledCount)) ∧
    (exec i s = .refused .nanBrightness ↔
      ∃ index r g b brightness n, i = .setPixel index r g b brightness ∧ s.life = .active n ∧ 0 ≤ index ∧
        index < (n : Int) ∧ datum brightness = .nan) ∧
    (∀ r, exec i s = .refused r →
      r = .notActive ∨ r = .alreadyBuiltOrFailed ∨ r = .badLedCount ∨ r = .nanBrightness)

/-- No instruction faults in any state, and none below the commands is refused, so a decoded instruction ends in a next
state or is a command that is refused. That frames and micro-operations are admitted whatever LIFE is is the model's
choice, log 7. -/
def Obligations.NoInstructionFaults : Prop :=
  (∀ (i : Instr) (s : State) (f : Fault), exec i s ≠ .fault f) ∧
  (∀ (i : Instr) (s : State), i.isCommand = false → ∃ t, exec i s = .next t)

/-- Which command can end with which status (60_exceptions.md, the spec's own inference). -/
def Obligations.StatusesByCommand : Prop :=
  ∀ s t : State,
    (∀ index r g b brightness, exec (.setPixel index r g b brightness) s = .next t →
      t.reply = some .ok ∨ t.reply = some (.indexOutOfRange index)) ∧
    (exec .clear s = .next t → t.reply = some .ok) ∧
    (exec .showBuffer s = .next t →
      t.reply = some .ok ∨ ∃ line level, t.reply = some (.lineAccessFailure (.write line level))) ∧
    (∀ ledCount, exec (.new ledCount) s = .next t →
      t.reply = some .ok ∨ t.reply = some (.lineAccessFailure .openLines) ∨
        ∃ line level, t.reply = some (.lineAccessFailure (.write line level))) ∧
    (exec .dispose s = .next t →
      t.reply = some .ok ∨ t.reply = some (.lineAccessFailure .releaseLines) ∨
        ∃ line level, t.reply = some (.lineAccessFailure (.write line level)))

/-- The status codes (60_exceptions.md, the spec's own decision D9); 3 is never returned. -/
def Obligations.StatusCodes : Prop :=
  Status.ok.code = 0 ∧ (∀ index, (Status.indexOutOfRange index).code = 1) ∧
  (∀ site, (Status.lineAccessFailure site).code = 2) ∧
  (∀ s : State, s.replyCode ≠ some 3)

/-- A status is a result, not state. A step from a state that differs only in the last status does the same, and
the states after it differ at most in that status. -/
def Obligations.StatusIsNeverRead : Prop :=
  ∀ (s : State) (r : Option Status),
    (∀ t, step s = .next t →
      ∃ t', step { s with reply := r } = .next t' ∧ { t' with reply := t.reply } = t ∧
        (t'.reply = t.reply ∨ (t.reply = s.reply ∧ t'.reply = r))) ∧
    (∀ f, step s = .fault f → step { s with reply := r } = .fault f) ∧
    (∀ q, step s = .refused q → step { s with reply := r } = .refused q)

/-! ### The machine as a whole -/

/-- The state at power-on (10_state.md, the spec's own decisions D7 and D8). -/
def Obligations.PowerOnState : Prop :=
  State.reset.life = .unbuilt ∧ State.reset.count = 0 ∧ State.reset.mem = [] ∧ State.reset.tx = .idle ∧
  State.reset.lvlData = .unknown ∧ State.reset.lvlClock = .unknown ∧ State.reset.w = []

/-- What a step runs: the host's next command, decoded, at the state with its word taken; a frame in the slot likewise; a
running SHOW's next write while TX is not IDLE; and with nothing waiting the state is held. The queue of words, the slot
and the idle step are the model's own (logs 4, 5, 6). -/
def Obligations.StepRunsTheDecodedInstruction : Prop :=
  ∀ s : State,
    (s.tx = .idle → s.frameSlot = none →
      (∀ w rest i, s.hostCommands = w :: rest → decodeCommand w = .ok i →
        step s = exec i { s with hostCommands := rest }) ∧
      (s.hostCommands = [] → step s = .next s)) ∧
    (∀ w i, s.tx = .idle → s.frameSlot = some w → decodeFrame w = .ok i →
      step s = exec i { s with frameSlot := none }) ∧
    (∀ p, s.tx = .pos p → step s = resume p s) ∧
    (∀ w i, decodeTableWord 128 w = some i →
      ∃ u, step (s.withFetchWord 128 w) = exec i u ∧ u = { s with tx := .idle, frameSlot := none }) ∧
    (∀ w i, decodeTableWord 32 w = some i →
      ∃ u, step (s.withFetchWord 32 w) = exec i u ∧ u = { s with tx := .idle, frameSlot := none })

/-- W is append-only (10_state.md). -/
def Obligations.TraceOnlyGrows : Prop :=
  ∀ s t : State, step s = .next t → ∃ more, t.w = s.w ++ more

/-- No step changes a parameter, and the physical identity of the lines is never read (00_scope.md R5, D15). -/
def Obligations.ParametersAreFixed : Prop :=
  ∀ s : State,
    (∀ t, step s = .next t → t.cfg = s.cfg) ∧
    (∀ (a b : Nat) (t : State), step s = .next t →
      step { s with cfg := { s.cfg with pinData := a, pinClock := b } } =
        .next { t with cfg := { s.cfg with pinData := a, pinClock := b } })

/-- The invariant of the block is kept by every step, from every state that has it. -/
def Obligations.EveryStepKeepsTheBlockWell : Prop :=
  ∀ s t : State, s.Inv → step s = .next t → t.Inv

/-- Between commands of a host that only issues commands: no frame waits, no SHOW is running, and while no controller
exists both levels are unknown (10_state.md R14, R15). -/
def Obligations.HostCommandsEndBetweenCommands : Prop :=
  ∀ s t : State, s.BetweenCommands → step s = .next t → t.BetweenCommands

/-- Power-on has both invariants. -/
def Obligations.PowerOnIsWell : Prop :=
  State.reset.Inv ∧ State.reset.BetweenCommands

/-! ### Recovery by clock edges and runs of a host (10_state.md R16, 42_lifecycle.md R136) -/

/-- The recovery of 10_state.md section 6, by CLOCK edges. The trace of a SHOW that begins with CLOCK at 0, as every SHOW
after a completed one does, gives the stream of the buffer; where CLOCK is not known to be at 0, its first bit is not
counted and every other bit is (which of the two recoveries counts that bit is the model's reading, log 26). -/
def Obligations.EdgesRecoverTheBytes : Prop :=
  ∀ (s : State) (n : Nat), s.life = .active n → s.lineOk.grants (24 * (4 * n + 8)) →
    ∃ t trace, exec .showBuffer s = .next t ∧ t.w = s.w ++ trace ∧ t.lvlClock = .driven false ∧
      (s.lvlClock = .driven false → edgeBytes s.lvlClock trace = some (encodeStream s.pixels)) ∧
      (s.lvlClock ≠ .driven false → edgeBits s.lvlClock trace = (recoverBits trace).drop 1)

/-- Where a run of a host can stop (42_lifecycle.md, the spec's own decision D16): it is complete, or its host still owes a
DISPOSE, or it has faulted, and only one of the three; the run in which no command was issued is not complete. -/
def Obligations.HostRunsAreClassified : Prop :=
  ∀ (s t : State) (words : List CommandWord), s.BetweenCommands → hostRun words s = .next t →
    (words = [] ∨ RunComplete s words t ∨ t.owesDispose ∨ t.runFaulted) ∧
    (words = [] → ¬ RunComplete s words t) ∧
    (RunComplete s words t → ¬ t.owesDispose ∧ ¬ t.runFaulted) ∧ (t.owesDispose → ¬ t.runFaulted)

/-- A complete run ends with a DISPOSE of a controller of N entries, and if no line write failed in it the last
24 * (4*N + 8) events of W are the all-off stream (42_lifecycle.md, the spec's own decision D16). -/
def Obligations.CompleteRunsEndDark : Prop :=
  ∀ (s t : State) (words : List CommandWord), s.BetweenCommands → RunComplete s words t →
    ∃ before last u n, words = before ++ [last] ∧ decodeCommand last = .ok .dispose ∧
      hostRun before s = .next u ∧ u.life = .active n ∧
      (u.lineOk.grants (24 * (4 * n + 8)) →
        t.w.drop (t.w.length - 24 * (4 * n + 8)) = succeeded (streamWrites (allOffStream n)))
end

