-- ==== Sys2Proof/Laws/State.lean ====
section
/-! SUPPORT. One lemma per field per named update of State, each true by rfl, so that no later proof unfolds a record
update; and the fields at power-on. -/

namespace Sys2Proof.Machine

/-! ### `State.returning` -/

@[simp] theorem State.returning_life (s : State) (status : Status) : (s.returning status).life = s.life := rfl
@[simp] theorem State.returning_mem (s : State) (status : Status) : (s.returning status).mem = s.mem := rfl
@[simp] theorem State.returning_tx (s : State) (status : Status) : (s.returning status).tx = s.tx := rfl
@[simp] theorem State.returning_lvlData (s : State) (status : Status) : (s.returning status).lvlData = s.lvlData := rfl
@[simp] theorem State.returning_lvlClock (s : State) (status : Status) : (s.returning status).lvlClock = s.lvlClock := rfl
@[simp] theorem State.returning_w (s : State) (status : Status) : (s.returning status).w = s.w := rfl
@[simp] theorem State.returning_reply (s : State) (status : Status) : (s.returning status).reply = some status := rfl
@[simp] theorem State.returning_hostCommands (s : State) (status : Status) : (s.returning status).hostCommands = s.hostCommands := rfl
@[simp] theorem State.returning_frameSlot (s : State) (status : Status) : (s.returning status).frameSlot = s.frameSlot := rfl
@[simp] theorem State.returning_lineOk (s : State) (status : Status) : (s.returning status).lineOk = s.lineOk := rfl
@[simp] theorem State.returning_openOk (s : State) (status : Status) : (s.returning status).openOk = s.openOk := rfl
@[simp] theorem State.returning_releaseOk (s : State) (status : Status) : (s.returning status).releaseOk = s.releaseOk := rfl
@[simp] theorem State.returning_cfg (s : State) (status : Status) : (s.returning status).cfg = s.cfg := rfl

/-! ### `State.setMem` -/

@[simp] theorem State.setMem_life (s : State) (m : Memory) : (s.setMem m).life = s.life := rfl
@[simp] theorem State.setMem_mem (s : State) (m : Memory) : (s.setMem m).mem = m := rfl
@[simp] theorem State.setMem_tx (s : State) (m : Memory) : (s.setMem m).tx = s.tx := rfl
@[simp] theorem State.setMem_lvlData (s : State) (m : Memory) : (s.setMem m).lvlData = s.lvlData := rfl
@[simp] theorem State.setMem_lvlClock (s : State) (m : Memory) : (s.setMem m).lvlClock = s.lvlClock := rfl
@[simp] theorem State.setMem_w (s : State) (m : Memory) : (s.setMem m).w = s.w := rfl
@[simp] theorem State.setMem_reply (s : State) (m : Memory) : (s.setMem m).reply = s.reply := rfl
@[simp] theorem State.setMem_hostCommands (s : State) (m : Memory) : (s.setMem m).hostCommands = s.hostCommands := rfl
@[simp] theorem State.setMem_frameSlot (s : State) (m : Memory) : (s.setMem m).frameSlot = s.frameSlot := rfl
@[simp] theorem State.setMem_lineOk (s : State) (m : Memory) : (s.setMem m).lineOk = s.lineOk := rfl
@[simp] theorem State.setMem_openOk (s : State) (m : Memory) : (s.setMem m).openOk = s.openOk := rfl
@[simp] theorem State.setMem_releaseOk (s : State) (m : Memory) : (s.setMem m).releaseOk = s.releaseOk := rfl
@[simp] theorem State.setMem_cfg (s : State) (m : Memory) : (s.setMem m).cfg = s.cfg := rfl

/-! ### `State.zeroBuffer` -/

@[simp] theorem State.zeroBuffer_life (s : State) : (s.zeroBuffer).life = s.life := rfl
@[simp] theorem State.zeroBuffer_mem (s : State) : (s.zeroBuffer).mem = s.mem.zeroBelow (4 * s.count) := rfl
@[simp] theorem State.zeroBuffer_tx (s : State) : (s.zeroBuffer).tx = s.tx := rfl
@[simp] theorem State.zeroBuffer_lvlData (s : State) : (s.zeroBuffer).lvlData = s.lvlData := rfl
@[simp] theorem State.zeroBuffer_lvlClock (s : State) : (s.zeroBuffer).lvlClock = s.lvlClock := rfl
@[simp] theorem State.zeroBuffer_w (s : State) : (s.zeroBuffer).w = s.w := rfl
@[simp] theorem State.zeroBuffer_reply (s : State) : (s.zeroBuffer).reply = s.reply := rfl
@[simp] theorem State.zeroBuffer_hostCommands (s : State) : (s.zeroBuffer).hostCommands = s.hostCommands := rfl
@[simp] theorem State.zeroBuffer_frameSlot (s : State) : (s.zeroBuffer).frameSlot = s.frameSlot := rfl
@[simp] theorem State.zeroBuffer_lineOk (s : State) : (s.zeroBuffer).lineOk = s.lineOk := rfl
@[simp] theorem State.zeroBuffer_openOk (s : State) : (s.zeroBuffer).openOk = s.openOk := rfl
@[simp] theorem State.zeroBuffer_releaseOk (s : State) : (s.zeroBuffer).releaseOk = s.releaseOk := rfl
@[simp] theorem State.zeroBuffer_cfg (s : State) : (s.zeroBuffer).cfg = s.cfg := rfl

/-! ### `State.allocate` -/

@[simp] theorem State.allocate_life (s : State) (n : Nat) : (s.allocate n).life = .active n := rfl
@[simp] theorem State.allocate_mem (s : State) (n : Nat) : (s.allocate n).mem = [] := rfl
@[simp] theorem State.allocate_tx (s : State) (n : Nat) : (s.allocate n).tx = s.tx := rfl
@[simp] theorem State.allocate_lvlData (s : State) (n : Nat) : (s.allocate n).lvlData = s.lvlData := rfl
@[simp] theorem State.allocate_lvlClock (s : State) (n : Nat) : (s.allocate n).lvlClock = s.lvlClock := rfl
@[simp] theorem State.allocate_w (s : State) (n : Nat) : (s.allocate n).w = s.w := rfl
@[simp] theorem State.allocate_reply (s : State) (n : Nat) : (s.allocate n).reply = s.reply := rfl
@[simp] theorem State.allocate_hostCommands (s : State) (n : Nat) : (s.allocate n).hostCommands = s.hostCommands := rfl
@[simp] theorem State.allocate_frameSlot (s : State) (n : Nat) : (s.allocate n).frameSlot = s.frameSlot := rfl
@[simp] theorem State.allocate_lineOk (s : State) (n : Nat) : (s.allocate n).lineOk = s.lineOk := rfl
@[simp] theorem State.allocate_openOk (s : State) (n : Nat) : (s.allocate n).openOk = s.openOk := rfl
@[simp] theorem State.allocate_releaseOk (s : State) (n : Nat) : (s.allocate n).releaseOk = s.releaseOk := rfl
@[simp] theorem State.allocate_cfg (s : State) (n : Nat) : (s.allocate n).cfg = s.cfg := rfl

/-! ### `State.release` -/

@[simp] theorem State.release_life (s : State) : (s.release).life = .unbuilt := rfl
@[simp] theorem State.release_mem (s : State) : (s.release).mem = [] := rfl
@[simp] theorem State.release_tx (s : State) : (s.release).tx = .idle := rfl
@[simp] theorem State.release_lvlData (s : State) : (s.release).lvlData = .unknown := rfl
@[simp] theorem State.release_lvlClock (s : State) : (s.release).lvlClock = .unknown := rfl
@[simp] theorem State.release_w (s : State) : (s.release).w = s.w := rfl
@[simp] theorem State.release_reply (s : State) : (s.release).reply = s.reply := rfl
@[simp] theorem State.release_hostCommands (s : State) : (s.release).hostCommands = s.hostCommands := rfl
@[simp] theorem State.release_frameSlot (s : State) : (s.release).frameSlot = s.frameSlot := rfl
@[simp] theorem State.release_lineOk (s : State) : (s.release).lineOk = s.lineOk := rfl
@[simp] theorem State.release_openOk (s : State) : (s.release).openOk = s.openOk := rfl
@[simp] theorem State.release_releaseOk (s : State) : (s.release).releaseOk = s.releaseOk.ask.2 := rfl
@[simp] theorem State.release_cfg (s : State) : (s.release).cfg = s.cfg := rfl

/-! ### `State.failNew` -/

@[simp] theorem State.failNew_life (s : State) (site : FailSite) : (s.failNew site).life = .failed := rfl
@[simp] theorem State.failNew_mem (s : State) (site : FailSite) : (s.failNew site).mem = s.mem := rfl
@[simp] theorem State.failNew_tx (s : State) (site : FailSite) : (s.failNew site).tx = s.tx := rfl
@[simp] theorem State.failNew_lvlData (s : State) (site : FailSite) : (s.failNew site).lvlData = s.lvlData := rfl
@[simp] theorem State.failNew_lvlClock (s : State) (site : FailSite) : (s.failNew site).lvlClock = s.lvlClock := rfl
@[simp] theorem State.failNew_w (s : State) (site : FailSite) : (s.failNew site).w = s.w := rfl
@[simp] theorem State.failNew_reply (s : State) (site : FailSite) : (s.failNew site).reply = some (.lineAccessFailure site) := rfl
@[simp] theorem State.failNew_hostCommands (s : State) (site : FailSite) : (s.failNew site).hostCommands = s.hostCommands := rfl
@[simp] theorem State.failNew_frameSlot (s : State) (site : FailSite) : (s.failNew site).frameSlot = s.frameSlot := rfl
@[simp] theorem State.failNew_lineOk (s : State) (site : FailSite) : (s.failNew site).lineOk = s.lineOk := rfl
@[simp] theorem State.failNew_openOk (s : State) (site : FailSite) : (s.failNew site).openOk = s.openOk := rfl
@[simp] theorem State.failNew_releaseOk (s : State) (site : FailSite) : (s.failNew site).releaseOk = s.releaseOk := rfl
@[simp] theorem State.failNew_cfg (s : State) (site : FailSite) : (s.failNew site).cfg = s.cfg := rfl

/-! ### `State.withCommand` -/

@[simp] theorem State.withCommand_life (s : State) (w : CommandWord) : (s.withCommand w).life = s.life := rfl
@[simp] theorem State.withCommand_mem (s : State) (w : CommandWord) : (s.withCommand w).mem = s.mem := rfl
@[simp] theorem State.withCommand_tx (s : State) (w : CommandWord) : (s.withCommand w).tx = .idle := rfl
@[simp] theorem State.withCommand_lvlData (s : State) (w : CommandWord) : (s.withCommand w).lvlData = s.lvlData := rfl
@[simp] theorem State.withCommand_lvlClock (s : State) (w : CommandWord) : (s.withCommand w).lvlClock = s.lvlClock := rfl
@[simp] theorem State.withCommand_w (s : State) (w : CommandWord) : (s.withCommand w).w = s.w := rfl
@[simp] theorem State.withCommand_reply (s : State) (w : CommandWord) : (s.withCommand w).reply = s.reply := rfl
@[simp] theorem State.withCommand_hostCommands (s : State) (w : CommandWord) : (s.withCommand w).hostCommands = w :: s.hostCommands := rfl
@[simp] theorem State.withCommand_frameSlot (s : State) (w : CommandWord) : (s.withCommand w).frameSlot = none := rfl
@[simp] theorem State.withCommand_lineOk (s : State) (w : CommandWord) : (s.withCommand w).lineOk = s.lineOk := rfl
@[simp] theorem State.withCommand_openOk (s : State) (w : CommandWord) : (s.withCommand w).openOk = s.openOk := rfl
@[simp] theorem State.withCommand_releaseOk (s : State) (w : CommandWord) : (s.withCommand w).releaseOk = s.releaseOk := rfl
@[simp] theorem State.withCommand_cfg (s : State) (w : CommandWord) : (s.withCommand w).cfg = s.cfg := rfl

/-! ### `State.withFrame` -/

@[simp] theorem State.withFrame_life (s : State) (w : FrameWord) : (s.withFrame w).life = s.life := rfl
@[simp] theorem State.withFrame_mem (s : State) (w : FrameWord) : (s.withFrame w).mem = s.mem := rfl
@[simp] theorem State.withFrame_tx (s : State) (w : FrameWord) : (s.withFrame w).tx = .idle := rfl
@[simp] theorem State.withFrame_lvlData (s : State) (w : FrameWord) : (s.withFrame w).lvlData = s.lvlData := rfl
@[simp] theorem State.withFrame_lvlClock (s : State) (w : FrameWord) : (s.withFrame w).lvlClock = s.lvlClock := rfl
@[simp] theorem State.withFrame_w (s : State) (w : FrameWord) : (s.withFrame w).w = s.w := rfl
@[simp] theorem State.withFrame_reply (s : State) (w : FrameWord) : (s.withFrame w).reply = s.reply := rfl
@[simp] theorem State.withFrame_hostCommands (s : State) (w : FrameWord) : (s.withFrame w).hostCommands = s.hostCommands := rfl
@[simp] theorem State.withFrame_frameSlot (s : State) (w : FrameWord) : (s.withFrame w).frameSlot = some w := rfl
@[simp] theorem State.withFrame_lineOk (s : State) (w : FrameWord) : (s.withFrame w).lineOk = s.lineOk := rfl
@[simp] theorem State.withFrame_openOk (s : State) (w : FrameWord) : (s.withFrame w).openOk = s.openOk := rfl
@[simp] theorem State.withFrame_releaseOk (s : State) (w : FrameWord) : (s.withFrame w).releaseOk = s.releaseOk := rfl
@[simp] theorem State.withFrame_cfg (s : State) (w : FrameWord) : (s.withFrame w).cfg = s.cfg := rfl

/-! ### `State.setLvl` -/

@[simp] theorem State.setLvl_life (s : State) (line : Line) (x : LineLevel) : (s.setLvl line x).life = s.life := by
  cases line <;> rfl
@[simp] theorem State.setLvl_mem (s : State) (line : Line) (x : LineLevel) : (s.setLvl line x).mem = s.mem := by
  cases line <;> rfl
@[simp] theorem State.setLvl_tx (s : State) (line : Line) (x : LineLevel) : (s.setLvl line x).tx = s.tx := by
  cases line <;> rfl
@[simp] theorem State.setLvl_w (s : State) (line : Line) (x : LineLevel) : (s.setLvl line x).w = s.w := by
  cases line <;> rfl
@[simp] theorem State.setLvl_reply (s : State) (line : Line) (x : LineLevel) : (s.setLvl line x).reply = s.reply := by
  cases line <;> rfl
@[simp] theorem State.setLvl_hostCommands (s : State) (line : Line) (x : LineLevel) : (s.setLvl line x).hostCommands = s.hostCommands := by
  cases line <;> rfl
@[simp] theorem State.setLvl_frameSlot (s : State) (line : Line) (x : LineLevel) : (s.setLvl line x).frameSlot = s.frameSlot := by
  cases line <;> rfl
@[simp] theorem State.setLvl_lineOk (s : State) (line : Line) (x : LineLevel) : (s.setLvl line x).lineOk = s.lineOk := by
  cases line <;> rfl
@[simp] theorem State.setLvl_openOk (s : State) (line : Line) (x : LineLevel) : (s.setLvl line x).openOk = s.openOk := by
  cases line <;> rfl
@[simp] theorem State.setLvl_releaseOk (s : State) (line : Line) (x : LineLevel) : (s.setLvl line x).releaseOk = s.releaseOk := by
  cases line <;> rfl
@[simp] theorem State.setLvl_cfg (s : State) (line : Line) (x : LineLevel) : (s.setLvl line x).cfg = s.cfg := by
  cases line <;> rfl
@[simp] theorem State.setLvl_data_lvlData (s : State) (x : LineLevel) : (s.setLvl .data x).lvlData = x := rfl
@[simp] theorem State.setLvl_data_lvlClock (s : State) (x : LineLevel) : (s.setLvl .data x).lvlClock = s.lvlClock := rfl
@[simp] theorem State.setLvl_clock_lvlData (s : State) (x : LineLevel) : (s.setLvl .clock x).lvlData = s.lvlData := rfl
@[simp] theorem State.setLvl_clock_lvlClock (s : State) (x : LineLevel) : (s.setLvl .clock x).lvlClock = x := rfl
@[simp] theorem State.lvl_data (s : State) : s.lvl .data = s.lvlData := rfl
@[simp] theorem State.lvl_clock (s : State) : s.lvl .clock = s.lvlClock := rfl

/-! ### N -/

@[simp] theorem State.count_returning (s : State) (status : Status) : (s.returning status).count = s.count := rfl
@[simp] theorem State.count_setMem (s : State) (m : Memory) : (s.setMem m).count = s.count := rfl
@[simp] theorem State.count_setLvl (s : State) (line : Line) (x : LineLevel) : (s.setLvl line x).count = s.count := by
  cases line <;> rfl
@[simp] theorem State.count_zeroBuffer (s : State) : s.zeroBuffer.count = s.count := rfl
@[simp] theorem State.count_allocate (s : State) (n : Nat) : (s.allocate n).count = n := rfl
@[simp] theorem State.count_release (s : State) : s.release.count = 0 := rfl
@[simp] theorem State.count_failNew (s : State) (site : FailSite) : (s.failNew site).count = 0 := rfl

theorem State.count_of_active {s : State} {n : Nat} (h : s.life = .active n) : s.count = n := by
  simp [State.count, h]

theorem State.count_congr {s t : State} (h : t.life = s.life) : t.count = s.count := by
  simp [State.count, h]

theorem State.pixel_congr {s t : State} (h : t.mem = s.mem) (i : Nat) : t.pixel i = s.pixel i := by
  simp [State.pixel, h]

theorem State.pixels_congr {s t : State} (hl : t.life = s.life) (hm : t.mem = s.mem) : t.pixels = s.pixels := by
  have hp : t.pixel = s.pixel := funext (State.pixel_congr hm)
  simp [State.pixels, State.count_congr hl, hp]

end Sys2Proof.Machine
end

