-- ==== Sys2Proof/Laws/Memory.lean ====
section
/-! SUPPORT. The laws of the buffer's bytes: what a write and a zeroing read back as, and that both keep the canonical
form. -/

namespace Sys2Proof.Machine

theorem Memory.read_of_lt {m : Memory} {lo a : Nat} (hm : Memory.wfFrom lo m = true) (h : a < lo) :
    m.read a = Memory.unlisted := by
  induction m generalizing lo with
  | nil => rfl
  | cons c rest ih =>
    obtain ⟨b, x⟩ := c
    simp only [Memory.wfFrom, Bool.and_eq_true, decide_eq_true_eq] at hm
    rw [Memory.read, if_neg (by omega)]
    exact ih hm.2 (by omega)

theorem Memory.wfFrom_mono {m : Memory} {lo lo' : Nat} (h : lo' ≤ lo) (hm : Memory.wfFrom lo m = true) :
    Memory.wfFrom lo' m = true := by
  cases m with
  | nil => rfl
  | cons c rest =>
    obtain ⟨b, x⟩ := c
    simp only [Memory.wfFrom, Bool.and_eq_true, decide_eq_true_eq] at hm ⊢
    exact ⟨⟨by omega, hm.1.2⟩, hm.2⟩

/-- Read after write, in a canonical buffer. -/
theorem Memory.read_write {m : Memory} {lo : Nat} (hm : Memory.wfFrom lo m = true) (a a' : Nat) (v : Byte) :
    (m.write a v).read a' = if a' = a then v else m.read a' := by
  induction m generalizing lo with
  | nil =>
    simp only [Memory.write]
    by_cases hv : v = Memory.unlisted <;> by_cases h : a' = a <;> simp [hv, h, Memory.read]
  | cons c rest ih =>
    obtain ⟨b, x⟩ := c
    simp only [Memory.wfFrom, Bool.and_eq_true, decide_eq_true_eq] at hm
    have hrest : ∀ {y : Nat}, y ≤ b → Memory.read rest y = Memory.unlisted := fun h =>
      Memory.read_of_lt hm.2 (by omega)
    simp only [Memory.write]
    split
    · split
      · rename_i hab hv
        by_cases h : a' = a
        · subst h
          rw [if_pos rfl, Memory.read, if_neg (by omega), hrest (by omega), hv]
        · rw [if_neg h]
      · rw [Memory.read]
    · split
      · rename_i hab hEq
        subst hEq
        split
        · rename_i hv
          by_cases h : a' = a
          · subst h
            rw [if_pos rfl, hrest (Nat.le_refl _), hv]
          · rw [if_neg h, Memory.read, if_neg h]
        · by_cases h : a' = a <;> simp [Memory.read, h]
      · rename_i hab hne
        rw [Memory.read, ih hm.2, Memory.read]
        by_cases h : a' = b
        · rw [if_pos h, if_pos h, if_neg (by omega)]
        · rw [if_neg h, if_neg h]

/-- A write keeps the canonical form. -/
theorem Memory.wfFrom_write {m : Memory} {lo a : Nat} (hm : Memory.wfFrom lo m = true) (ha : lo ≤ a) (v : Byte) :
    Memory.wfFrom lo (m.write a v) = true := by
  induction m generalizing lo with
  | nil =>
    simp only [Memory.write]
    split
    · rfl
    · rename_i hv
      simp [Memory.wfFrom, ha, hv]
  | cons c rest ih =>
    obtain ⟨b, x⟩ := c
    simp only [Memory.wfFrom, Bool.and_eq_true, decide_eq_true_eq] at hm
    simp only [Memory.write]
    split
    · split
      · simp only [Memory.wfFrom, Bool.and_eq_true, decide_eq_true_eq]
        exact hm
      · rename_i hab hv
        simp only [Memory.wfFrom, Bool.and_eq_true, decide_eq_true_eq]
        exact ⟨⟨ha, hv⟩, ⟨by omega, hm.1.2⟩, hm.2⟩
    · split
      · split
        · exact Memory.wfFrom_mono (by omega) hm.2
        · rename_i hv
          simp only [Memory.wfFrom, Bool.and_eq_true, decide_eq_true_eq]
          exact ⟨⟨hm.1.1, hv⟩, hm.2⟩
      · simp only [Memory.wfFrom, Bool.and_eq_true, decide_eq_true_eq]
        exact ⟨hm.1, ih hm.2 (by omega)⟩

theorem Memory.wf_write {m : Memory} (hm : m.wf = true) (a : Nat) (v : Byte) : (m.write a v).wf = true :=
  Memory.wfFrom_write hm (Nat.zero_le a) v

theorem Memory.mem_write {m : Memory} {a : Nat} {v : Byte} {c : Host.Cell} (h : c ∈ m.write a v) :
    c ∈ m ∨ c.1 = a := by
  induction m with
  | nil =>
    simp only [Memory.write] at h
    split at h <;> simp_all
  | cons d rest ih =>
    obtain ⟨b, x⟩ := d
    simp only [Memory.write] at h
    split at h
    · split at h
      · exact .inl h
      · rcases List.mem_cons.1 h with h | h
        · exact .inr (by rw [h])
        · exact .inl h
    · split at h
      · rename_i hEq
        split at h
        · exact .inl (List.mem_cons_of_mem _ h)
        · rcases List.mem_cons.1 h with h | h
          · exact .inr (by rw [h]; exact hEq.symm)
          · exact .inl (List.mem_cons_of_mem _ h)
      · rcases List.mem_cons.1 h with h | h
        · exact .inl (by rw [h]; exact List.mem_cons_self)
        · exact (ih h).imp (List.mem_cons_of_mem _) id

/-- Zeroing keeps the canonical form. -/
theorem Memory.wfFrom_zeroBelow {m : Memory} {lo : Nat} (size : Nat) (hm : Memory.wfFrom lo m = true) :
    Memory.wfFrom lo (m.zeroBelow size) = true := by
  induction m generalizing lo with
  | nil => rfl
  | cons c rest ih =>
    obtain ⟨b, x⟩ := c
    simp only [Memory.wfFrom, Bool.and_eq_true, decide_eq_true_eq] at hm
    by_cases h : size ≤ b
    · have := ih hm.2
      simp only [Memory.zeroBelow, List.filter_cons, h, decide_true, if_true, Memory.wfFrom, Bool.and_eq_true,
        decide_eq_true_eq] at this ⊢
      exact ⟨hm.1, this⟩
    · have := Memory.wfFrom_mono (lo' := lo) (by omega) (ih hm.2)
      simpa only [Memory.zeroBelow, List.filter_cons, h, decide_false, Bool.false_eq_true, if_false] using this

theorem Memory.wf_zeroBelow {m : Memory} (size : Nat) (hm : m.wf = true) : (m.zeroBelow size).wf = true :=
  Memory.wfFrom_zeroBelow size hm

theorem Memory.read_zeroBelow (m : Memory) (size a : Nat) :
    (m.zeroBelow size).read a = if a < size then Memory.unlisted else m.read a := by
  induction m with
  | nil => simp [Memory.zeroBelow, Memory.read]
  | cons c rest ih =>
    obtain ⟨b, x⟩ := c
    by_cases h : size ≤ b
    · simp only [Memory.zeroBelow, List.filter_cons, h, decide_true, if_true] at ih ⊢
      rw [Memory.read, ih, Memory.read]
      split <;> split <;> first | rfl | omega
    · simp only [Memory.zeroBelow, List.filter_cons, h, decide_false, Bool.false_eq_true, if_false] at ih ⊢
      rw [ih, Memory.read]
      split
      · rfl
      · rw [if_neg (by omega)]

theorem Memory.zeroBelow_of_inside {m : Memory} {size : Nat} (h : ∀ c ∈ m, c.1 < size) : m.zeroBelow size = [] := by
  refine List.filter_eq_nil_iff.2 fun c hc => ?_
  have := h c hc
  simp only [decide_eq_true_eq]
  omega

/-- The four writes of an entry keep the canonical form. -/
theorem Memory.wf_setPixel {m : Memory} (hm : m.wf = true) (i : Nat) (p : Pixel) : (m.setPixel i p).wf = true :=
  Memory.wf_write (Memory.wf_write (Memory.wf_write (Memory.wf_write hm _ _) _ _) _ _) _ _

/-- What every offset reads as after an entry has been written. -/
theorem Memory.read_setPixel {m : Memory} (hm : m.wf = true) (i a : Nat) (p : Pixel) :
    (m.setPixel i p).read a =
      if a = 4 * i + 3 then p.red else if a = 4 * i + 2 then p.green else if a = 4 * i + 1 then p.blue
      else if a = 4 * i then p.brightness5 else m.read a := by
  have h0 := Memory.wf_write hm (4 * i) p.brightness5
  have h1 := Memory.wf_write h0 (4 * i + 1) p.blue
  have h2 := Memory.wf_write h1 (4 * i + 2) p.green
  rw [Memory.setPixel, Memory.read_write h2, Memory.read_write h1, Memory.read_write h0, Memory.read_write hm]

/-- The entry written reads back whole; every other entry is as before. -/
theorem Memory.pixel_setPixel {m : Memory} (hm : m.wf = true) (i j : Nat) (p : Pixel) :
    (m.setPixel i p).pixel j = if j = i then p else m.pixel j := by
  by_cases h : j = i
  · subst h
    simp [Memory.pixel, Memory.read_setPixel hm]
  · rw [if_neg h]
    simp only [Memory.pixel, Memory.read_setPixel hm, Pixel.mk.injEq]
    refine ⟨?_, ?_, ?_, ?_⟩ <;>
    · rw [if_neg (by omega), if_neg (by omega), if_neg (by omega), if_neg (by omega)]

/-- In range, the four writes of SET_PIXEL succeed and change the buffer only. -/
theorem State.storePixel_ok {s : State} {i : Nat} (h : i < s.count) (p : Pixel) :
    s.storePixel i p = .ok (s.setMem (s.mem.setPixel i p)) := by
  have hw : ∀ (m : Memory) (a : Nat) (v : Byte), a < 4 * i + 4 →
      (s.setMem m).memWrite a v = .ok (s.setMem (m.write a v)) := by
    intro m a v ha
    have hlt : a < 4 * (s.setMem m).count := by rw [State.count_setMem]; omega
    rw [State.memWrite, if_pos hlt]
    rfl
  have h0 : s.memWrite (4 * i) p.brightness5 = .ok (s.setMem (s.mem.write (4 * i) p.brightness5)) :=
    hw s.mem _ _ (by omega)
  simp only [State.storePixel, h0, hw _ (4 * i + 1) p.blue (by omega), hw _ (4 * i + 2) p.green (by omega),
    hw _ (4 * i + 3) p.red (by omega), Memory.setPixel]

theorem Memory.mem_setPixel {m : Memory} {i : Nat} {p : Pixel} {c : Host.Cell} (h : c ∈ m.setPixel i p) :
    c ∈ m ∨ (4 * i ≤ c.1 ∧ c.1 < 4 * i + 4) := by
  rcases Memory.mem_write h with h | h
  · rcases Memory.mem_write h with h | h
    · rcases Memory.mem_write h with h | h
      · rcases Memory.mem_write h with h | h
        · exact .inl h
        · exact .inr (by omega)
      · exact .inr (by omega)
    · exact .inr (by omega)
  · exact .inr (by omega)

end Sys2Proof.Machine
end

