-- ==== Sys2Proof/Laws/Transmit.lean ====
section
/-! SUPPORT. The transmit stage as one run of line writes: every micro-operation is `drive` of its list of writes, and
`drive` either makes them all or stops at the first that fails. -/

namespace Sys2Proof.Machine

/-! ### Attempts and loops -/

@[simp] theorem Attempt.bind_done (s : State) (f : State → Attempt) : (Attempt.done s).bind f = f s := rfl
@[simp] theorem Attempt.bind_raised (s : State) (e : FailSite) (f : State → Attempt) :
    (Attempt.raised s e).bind f = .raised s e := rfl

theorem Attempt.bind_assoc (a : Attempt) (f g : State → Attempt) :
    (a.bind f).bind g = a.bind fun s => (f s).bind g := by
  cases a <;> rfl

@[simp] theorem Attempt.bind_done_right (a : Attempt) : a.bind Attempt.done = a := by
  cases a <;> rfl

@[simp] theorem forEach_nil {α : Type} (f : α → State → Attempt) (s : State) : forEach [] f s = .done s := rfl
theorem forEach_cons {α : Type} (x : α) (xs : List α) (f : α → State → Attempt) (s : State) :
    forEach (x :: xs) f s = (f x s).bind (forEach xs f) := rfl

theorem forEach_append {α : Type} (xs ys : List α) (f : α → State → Attempt) (s : State) :
    forEach (xs ++ ys) f s = (forEach xs f s).bind (forEach ys f) := by
  induction xs generalizing s with
  | nil => rfl
  | cons x xs ih =>
    rw [List.cons_append, forEach_cons, forEach_cons, Attempt.bind_assoc]
    congr 1
    exact funext ih

/-- A loop whose body is itself a loop is one loop over the joined lists. -/
theorem forEach_flatMap {α β : Type} {f : α → State → Attempt} {g : α → List β} {h : β → State → Attempt}
    (hf : ∀ x s, f x s = forEach (g x) h s) (xs : List α) (s : State) :
    forEach xs f s = forEach (xs.flatMap g) h s := by
  induction xs generalizing s with
  | nil => rfl
  | cons x xs ih =>
    rw [forEach_cons, List.flatMap_cons, forEach_append, hf]
    congr 1
    exact funext ih

/-- What an attempt leaves, related to where it began by a reflexive and transitive relation its parts keep. -/
theorem forEach_keeps {α : Type} {R : State → State → Prop} (hrefl : ∀ s, R s s)
    (htrans : ∀ a b c, R a b → R b c → R a c) {f : α → State → Attempt} (hf : ∀ x s, R s (f x s).state)
    (xs : List α) (s : State) : R s (forEach xs f s).state := by
  induction xs generalizing s with
  | nil => exact hrefl s
  | cons x xs ih =>
    rw [forEach_cons]
    have h := hf x s
    cases hx : f x s with
    | done t =>
      rw [hx] at h
      exact htrans _ _ _ h (ih t)
    | raised t e =>
      rw [hx] at h
      exact h

/-! ### Runs of line writes -/

/-- Line writes in order, stopping at the first that fails. -/
def drive (writes : List (Line × Bool)) (s : State) : Attempt := forEach writes (fun x => lineWrite x.1 x.2) s

theorem streamWrites_append (xs ys : List Byte) : streamWrites (xs ++ ys) = streamWrites xs ++ streamWrites ys :=
  List.flatMap_append

theorem drive_append (xs ys : List (Line × Bool)) (s : State) : drive (xs ++ ys) s = (drive xs s).bind (drive ys) :=
  forEach_append _ _ _ _

theorem lineWrite_eq_drive (line : Line) (level : Bool) (s : State) : lineWrite line level s = drive [(line, level)] s :=
  (Attempt.bind_done_right _).symm

theorem sendBit_eq_drive (b : Bool) (s : State) : sendBit b s = drive (bitWrites b) s := by
  simp only [sendBit, drive, bitWrites, forEach_cons]
  congr 1
  funext s1
  congr 1
  funext s2
  exact (Attempt.bind_done_right _).symm

theorem sendByte_eq_drive (v : Byte) (s : State) : sendByte v s = drive (byteWrites v) s :=
  forEach_flatMap (g := bitWrites) sendBit_eq_drive _ _

theorem sendBytes_eq_drive (bytes : List Byte) (s : State) : sendBytes bytes s = drive (streamWrites bytes) s :=
  forEach_flatMap (g := byteWrites) sendByte_eq_drive _ _

/-- What line writes leave alone: everything but TX, the levels, W and the oracle; W only grows. -/
structure SentFrom (s t : State) : Prop where
  life : t.life = s.life
  mem : t.mem = s.mem
  reply : t.reply = s.reply
  hostCommands : t.hostCommands = s.hostCommands
  frameSlot : t.frameSlot = s.frameSlot
  openOk : t.openOk = s.openOk
  releaseOk : t.releaseOk = s.releaseOk
  cfg : t.cfg = s.cfg
  w : ∃ more, t.w = s.w ++ more

theorem SentFrom.refl (s : State) : SentFrom s s := ⟨rfl, rfl, rfl, rfl, rfl, rfl, rfl, rfl, [], by simp⟩

theorem SentFrom.trans {a b c : State} (h : SentFrom a b) (k : SentFrom b c) : SentFrom a c := by
  obtain ⟨x, hx⟩ := h.w
  obtain ⟨y, hy⟩ := k.w
  exact ⟨k.life.trans h.life, k.mem.trans h.mem, k.reply.trans h.reply, k.hostCommands.trans h.hostCommands,
    k.frameSlot.trans h.frameSlot, k.openOk.trans h.openOk, k.releaseOk.trans h.releaseOk, k.cfg.trans h.cfg,
    x ++ y, by rw [hy, hx, List.append_assoc]⟩

/-- Everything one line write can do. -/
theorem lineWrite_cases (line : Line) (level : Bool) (s : State) :
    (s.lineOk.answerAt 0 = true ∧ ∃ t, lineWrite line level s = .done t ∧ SentFrom s t ∧
      t.w = s.w ++ [{ line := line, level := level, ok := true }] ∧ t.lvl line = .driven level ∧
      (∀ l, l ≠ line → t.lvl l = s.lvl l) ∧ t.tx = s.tx.advance (streamBytes s.count) ∧ t.lineOk = s.lineOk.skip 1) ∨
    (s.lineOk.answerAt 0 = false ∧ ∃ t, lineWrite line level s = .raised t (.write line level) ∧ SentFrom s t ∧
      t.w = s.w ++ [{ line := line, level := level, ok := false }] ∧ t.lvl line = .unknown ∧
      (∀ l, l ≠ line → t.lvl l = s.lvl l) ∧ t.tx = .idle ∧ t.lineOk = s.lineOk.skip 1) := by
  have hask : s.lineOk.ask = (s.lineOk.answerAt 0, s.lineOk.skip 1) := by
    rcases h : s.lineOk with ⟨answers, rest⟩
    cases answers <;> simp [Oracle.ask, Oracle.answerAt, Oracle.skip]
  simp only [lineWrite, hask]
  cases hok : s.lineOk.answerAt 0
  · right
    refine ⟨rfl, _, rfl, ?_, ?_⟩
    · constructor <;> simp
    · cases line <;> refine ⟨by simp, rfl, ?_, rfl, by simp⟩ <;> intro l hl <;> cases l <;> first | rfl | exact absurd rfl hl
  · left
    refine ⟨rfl, _, rfl, ?_, ?_⟩
    · constructor <;> simp
    · cases line <;> refine ⟨by simp, rfl, ?_, rfl, by simp⟩ <;> intro l hl <;> cases l <;> first | rfl | exact absurd rfl hl

theorem lineWrite_sentFrom (line : Line) (level : Bool) (s : State) : SentFrom s (lineWrite line level s).state := by
  rcases lineWrite_cases line level s with ⟨-, t, ht, h, -⟩ | ⟨-, t, ht, h, -⟩ <;> rw [ht] <;> exact h

theorem drive_sentFrom (writes : List (Line × Bool)) (s : State) : SentFrom s (drive writes s).state :=
  forEach_keeps (α := Line × Bool) (f := fun x => lineWrite x.1 x.2) SentFrom.refl
    (fun _ _ _ => SentFrom.trans) (fun x s => lineWrite_sentFrom x.1 x.2 s) writes s

theorem drive_done_sentFrom {writes : List (Line × Bool)} {s t : State} (h : drive writes s = .done t) : SentFrom s t := by
  have := drive_sentFrom writes s
  rwa [h] at this

/-- The LED frames of the whole buffer, as one run of line writes. -/
theorem sendEntries_eq_drive (is : List Nat) (s : State) :
    forEach is sendEntry s = drive (streamWrites (is.flatMap fun i => ledFrameBytes (s.pixel i))) s := by
  induction is generalizing s with
  | nil => rfl
  | cons i is ih =>
    rw [forEach_cons, sendEntry, sendBytes_eq_drive, List.flatMap_cons, streamWrites_append, drive_append]
    cases h : drive (streamWrites (ledFrameBytes (s.pixel i))) s with
    | raised t e => rfl
    | done t =>
      have hp : t.pixel = s.pixel := funext (State.pixel_congr (drive_done_sentFrom h).mem)
      rw [Attempt.bind_done, Attempt.bind_done, ih, hp]

/-- A SHOW is the run of the writes of its stream, from TX = (0, 7, 0) to IDLE (R101). -/
theorem transmit_eq_drive (s : State) :
    transmit s = (drive s.showPlan { s with tx := .pos TxPos.start }).bind fun t => .done { t with tx := .idle } := by
  have hpix : ∀ t : State, t.mem = s.mem → t.life = s.life →
      (List.range t.count).flatMap (fun i => ledFrameBytes (t.pixel i)) = s.pixels.flatMap ledFrameBytes := by
    intro t hm hl
    have hp : t.pixel = s.pixel := funext (State.pixel_congr hm)
    rw [State.pixels, State.count_congr hl, hp, List.flatMap_map]
  rw [transmit, sendBytes_eq_drive, State.showPlan, encodeStream, streamWrites_append, streamWrites_append,
    drive_append, drive_append, Attempt.bind_assoc, Attempt.bind_assoc]
  cases h : drive (streamWrites startFrameBytes) { s with tx := .pos TxPos.start } with
  | raised t e => rfl
  | done t =>
    have hf := drive_done_sentFrom h
    simp only [Attempt.bind_done]
    rw [sendEntries_eq_drive, hpix t hf.mem hf.life]
    congr 1
    funext t2
    rw [sendBytes_eq_drive]

/-! ### The oracle -/

theorem Oracle.answerAt_skip (o : Oracle) (p q : Nat) : (o.skip p).answerAt q = o.answerAt (p + q) := by
  simp [Oracle.answerAt, Oracle.skip, List.getD_eq_getElem?_getD, List.getElem?_drop]

theorem Oracle.skip_skip (o : Oracle) (p q : Nat) : (o.skip p).skip q = o.skip (p + q) := by
  simp [Oracle.skip, List.drop_drop]

@[simp] theorem Oracle.skip_zero (o : Oracle) : o.skip 0 = o := by
  simp [Oracle.skip]

@[simp] theorem Oracle.skip_rest (o : Oracle) (p : Nat) : (o.skip p).rest = o.rest := rfl

theorem Oracle.ask_eq (o : Oracle) : o.ask = (o.answerAt 0, o.skip 1) := by
  rcases o with ⟨answers, rest⟩
  cases answers <;> simp [Oracle.ask, Oracle.answerAt, Oracle.skip]

end Sys2Proof.Machine
end

