-- ==== Sys2Proof/Laws/Drive.lean ====
section
/-! SUPPORT. The exact result of a run of line writes, by what the environment answers; the length of a stream's writes
and the levels they leave. -/

namespace Sys2Proof.Machine

theorem lineWrite_ok {s : State} (h : s.lineOk.answerAt 0 = true) (line : Line) (level : Bool) :
    lineWrite line level s = .done (s.wrote [(line, level)]) := by
  simp only [lineWrite, Oracle.ask_eq, h, if_true]
  cases line <;> rfl

theorem lineWrite_failed {s : State} (h : s.lineOk.answerAt 0 = false) (line : Line) (level : Bool) :
    lineWrite line level s = .raised (s.wroteThenFailed [] line level) (.write line level) := by
  simp only [lineWrite, Oracle.ask_eq, h]
  cases line <;> simp [State.wroteThenFailed, State.setLvl, levelAfter, succeeded]

theorem succeeded_append (xs ys : List (Line × Bool)) : succeeded (xs ++ ys) = succeeded xs ++ succeeded ys :=
  List.map_append

theorem levelAfter_append (line : Line) (old : LineLevel) (xs ys : List (Line × Bool)) :
    levelAfter line old (xs ++ ys) = levelAfter line (levelAfter line old xs) ys := by
  induction xs generalizing old with
  | nil => rfl
  | cons x xs ih => exact ih _

theorem State.wrote_nil (s : State) : s.wrote [] = s := by
  simp [State.wrote, succeeded, levelAfter, Tx.advanceBy]

theorem State.wrote_cons (s : State) (x : Line × Bool) (xs : List (Line × Bool)) :
    (s.wrote [x]).wrote xs = s.wrote (x :: xs) := by
  simp only [State.wrote, State.count, List.length_cons, List.length_nil, Oracle.skip_skip, State.mk.injEq, true_and,
    and_true]
  refine ⟨by simp [Tx.advanceBy], by simp [levelAfter], by simp [levelAfter], by simp [succeeded], ?_⟩
  rw [Nat.zero_add, Nat.add_comm]

theorem State.wrote_cons_failed (s : State) (x : Line × Bool) (xs : List (Line × Bool)) (line : Line) (level : Bool) :
    (s.wrote [x]).wroteThenFailed xs line level = s.wroteThenFailed (x :: xs) line level := by
  simp only [State.wrote, State.wroteThenFailed, List.length_cons, List.length_nil, Oracle.skip_skip, State.mk.injEq,
    true_and, and_true]
  refine ⟨by simp [levelAfter], by simp [levelAfter], by simp [succeeded], ?_⟩
  congr 1
  omega

theorem Oracle.grants_succ {o : Oracle} {p : Nat} :
    o.grants (p + 1) ↔ o.answerAt 0 = true ∧ (o.skip 1).grants p := by
  constructor
  · intro h
    refine ⟨h 0 (by omega), fun q hq => ?_⟩
    rw [Oracle.answerAt_skip]
    exact h _ (by omega)
  · rintro ⟨h0, h⟩ q hq
    cases q with
    | zero => exact h0
    | succ q =>
      have := h q (by omega)
      rwa [Oracle.answerAt_skip, Nat.add_comm] at this

theorem Oracle.grants_zero (o : Oracle) : o.grants 0 := fun _ h => absurd h (Nat.not_lt_zero _)

theorem Oracle.grants_mono {o : Oracle} {p q : Nat} (h : o.grants q) (hpq : p ≤ q) : o.grants p :=
  fun r hr => h r (by omega)

/-- Either the next `n` writes all succeed, or there is a first that fails. -/
theorem Oracle.grants_or_first_failure (o : Oracle) (n : Nat) :
    o.grants n ∨ ∃ p, p < n ∧ o.grants p ∧ o.answerAt p = false := by
  induction n with
  | zero => exact .inl (Oracle.grants_zero o)
  | succ n ih =>
    rcases ih with h | ⟨p, hp, hg, hf⟩
    · cases ha : o.answerAt n
      · exact .inr ⟨n, by omega, h, ha⟩
      · refine .inl fun q hq => ?_
        rcases Nat.lt_succ_iff_lt_or_eq.1 hq with hq | hq
        · exact h q hq
        · rw [hq]; exact ha
    · exact .inr ⟨p, by omega, hg, hf⟩

/-- When the environment lets them all succeed, a run of writes makes them all. -/
theorem drive_grants {writes : List (Line × Bool)} {s : State} (h : s.lineOk.grants writes.length) :
    drive writes s = .done (s.wrote writes) := by
  induction writes generalizing s with
  | nil => exact congrArg Attempt.done (State.wrote_nil s).symm
  | cons x xs ih =>
    rw [List.length_cons, Oracle.grants_succ] at h
    rw [drive, forEach_cons, lineWrite_ok h.1, Attempt.bind_done]
    have hx : (s.wrote [x]).lineOk = s.lineOk.skip 1 := rfl
    have := ih (s := s.wrote [x]) (by rw [hx]; exact h.2)
    rw [drive] at this
    rw [this, State.wrote_cons]

/-- A run of writes stops at the first that fails. -/
theorem drive_first_failure {writes : List (Line × Bool)} {s : State} {p : Nat} {x : Line × Bool}
    (hx : writes[p]? = some x) (hg : s.lineOk.grants p) (hf : s.lineOk.answerAt p = false) :
    drive writes s = .raised (s.wroteThenFailed (writes.take p) x.1 x.2) (.write x.1 x.2) := by
  induction writes generalizing s p with
  | nil => simp at hx
  | cons y ys ih =>
    rw [drive, forEach_cons]
    cases p with
    | zero =>
      simp only [List.getElem?_cons_zero, Option.some.injEq] at hx
      subst hx
      rw [lineWrite_failed hf]
      rfl
    | succ p =>
      rw [Oracle.grants_succ] at hg
      have hy : (s.wrote [y]).lineOk = s.lineOk.skip 1 := rfl
      rw [lineWrite_ok hg.1, Attempt.bind_done]
      have := ih (s := s.wrote [y]) (p := p) (by simpa using hx) (by rw [hy]; exact hg.2)
        (by rw [hy, Oracle.answerAt_skip, Nat.add_comm]; exact hf)
      rw [drive] at this
      rw [this, List.take_succ_cons, State.wrote_cons_failed]

/-! ### The writes of a stream -/

@[simp] theorem byteWrites_length (v : Byte) : (byteWrites v).length = 24 := rfl

@[simp] theorem streamWrites_length (bytes : List Byte) : (streamWrites bytes).length = 24 * bytes.length := by
  induction bytes with
  | nil => rfl
  | cons v vs ih =>
    rw [streamWrites] at ih
    rw [streamWrites, List.flatMap_cons, List.length_append, ih, byteWrites_length, List.length_cons]
    omega

@[simp] theorem encodeStream_length (buffer : List Pixel) :
    (encodeStream buffer).length = 4 + 4 * buffer.length + 4 := by
  have h : (buffer.flatMap ledFrameBytes).length = 4 * buffer.length := by
    induction buffer with
    | nil => rfl
    | cons p ps ih =>
      rw [List.flatMap_cons, List.length_append, ih, List.length_cons]
      simp only [ledFrameBytes, List.length_cons, List.length_nil]
      omega
  simp [encodeStream, h, startFrameBytes, endFrameBytes]
  omega

@[simp] theorem State.pixels_length (s : State) : s.pixels.length = s.count := by
  simp [State.pixels]

@[simp] theorem State.showPlan_length (s : State) : s.showPlan.length = showWrites s.count := by
  simp only [State.showPlan, streamWrites_length, encodeStream_length, State.pixels_length, showWrites]
  omega

theorem byteWrites_levelAfter_clock (v : Byte) (old : LineLevel) : levelAfter .clock old (byteWrites v) = .driven false :=
  rfl

/-- Every stream of a SHOW ends with the last bit of the end frame: DATA 1, CLOCK 0 (R112). -/
theorem encodeStream_levels (buffer : List Pixel) (line : Line) (old : LineLevel) :
    levelAfter line old (streamWrites (encodeStream buffer)) = .driven (decide (line = .data)) := by
  have h : ∀ old : LineLevel, levelAfter line old (byteWrites 0xFF#8) = .driven (decide (line = .data)) := by
    intro old
    cases line <;> rfl
  have he : encodeStream buffer = (startFrameBytes ++ buffer.flatMap ledFrameBytes ++ [0xFF, 0xFF, 0xFF]) ++ [0xFF] := by
    simp [encodeStream, endFrameBytes]
  rw [he, streamWrites_append, levelAfter_append]
  have hs : streamWrites [(0xFF : Byte)] = byteWrites 0xFF#8 := by
    simp [streamWrites]
  rw [hs]
  exact h _

/-- A SHOW whose writes all succeed. -/
theorem transmit_grants {s : State} (h : s.lineOk.grants (showWrites s.count)) :
    transmit s = .done (s.showed (encodeStream s.pixels)) := by
  have hd : drive s.showPlan { s with tx := .pos TxPos.start } =
      .done (State.wrote { s with tx := .pos TxPos.start } s.showPlan) :=
    drive_grants (by rw [State.showPlan_length]; exact h)
  rw [transmit_eq_drive, hd, Attempt.bind_done]
  have hlen : s.showPlan.length = 24 * (encodeStream s.pixels).length := streamWrites_length _
  simp only [State.wrote, State.showed, hlen, Attempt.done.injEq, State.mk.injEq, true_and, and_true]
  rw [State.showPlan]
  exact ⟨encodeStream_levels _ _ _, encodeStream_levels _ _ _, rfl⟩

/-- A SHOW stopped by its first failing write. -/
theorem transmit_first_failure {s : State} {p : Nat} {x : Line × Bool} (hx : s.showPlan[p]? = some x)
    (hg : s.lineOk.grants p) (hf : s.lineOk.answerAt p = false) :
    transmit s = .raised (s.wroteThenFailed (s.showPlan.take p) x.1 x.2) (.write x.1 x.2) := by
  have hd : drive s.showPlan { s with tx := .pos TxPos.start } = .raised
      (State.wroteThenFailed { s with tx := .pos TxPos.start } (s.showPlan.take p) x.1 x.2) (.write x.1 x.2) :=
    drive_first_failure hx hg hf
  rw [transmit_eq_drive, hd, Attempt.bind_raised]
  rfl

/-- What a SHOW leaves alone, whatever the environment answers. -/
theorem transmit_sentFrom (s : State) : SentFrom s (transmit s).state := by
  have h := drive_sentFrom s.showPlan { s with tx := .pos TxPos.start }
  rw [transmit_eq_drive]
  have hs : SentFrom s { s with tx := .pos TxPos.start } := ⟨rfl, rfl, rfl, rfl, rfl, rfl, rfl, rfl, [], by simp⟩
  cases hd : drive s.showPlan { s with tx := .pos TxPos.start } with
  | done t =>
    rw [hd] at h
    exact hs.trans (h.trans ⟨rfl, rfl, rfl, rfl, rfl, rfl, rfl, rfl, [], (List.append_nil _).symm⟩)
  | raised t e =>
    rw [hd] at h
    exact hs.trans h

/-- Everything a SHOW can do. -/
theorem transmit_cases (s : State) :
    (s.lineOk.grants (showWrites s.count) ∧ transmit s = .done (s.showed (encodeStream s.pixels))) ∨
    (∃ p x, s.showPlan[p]? = some x ∧ s.lineOk.grants p ∧ s.lineOk.answerAt p = false ∧
      transmit s = .raised (s.wroteThenFailed (s.showPlan.take p) x.1 x.2) (.write x.1 x.2)) := by
  rcases Oracle.grants_or_first_failure s.lineOk (showWrites s.count) with h | ⟨p, hp, hg, hf⟩
  · exact .inl ⟨h, transmit_grants h⟩
  · have hlt : p < s.showPlan.length := by rwa [State.showPlan_length]
    have hx : s.showPlan[p]? = some s.showPlan[p] := List.getElem?_eq_getElem hlt
    exact .inr ⟨p, _, hx, hg, hf, transmit_first_failure hx hg hf⟩

end Sys2Proof.Machine
end

