-- ==== Sys2Proof/Laws/Operands.lean ====
section
/-! SUPPORT. The range of the clamp and of both instances of the quantiser. -/

namespace Sys2Proof.Machine

theorem unitsInOne_eq : unitsInOne = 1 * 2 ^ 1074 := by
  unfold unitsInOne
  exact (Nat.one_mul _).symm

theorem unitsInOne_pos : 0 < unitsInOne := by
  rw [unitsInOne_eq, Nat.one_mul]
  exact Nat.two_pow_pos _

/-- The clamp never leaves [0, 1] (R55). -/
theorem clamp_le_one {d : Datum} {x : Nat} (h : clamp d = some x) : x ≤ unitsInOne := by
  cases d with
  | negInf => simp only [clamp, Option.some.injEq] at h; omega
  | posInf => simp only [clamp, Option.some.injEq] at h; omega
  | nan => simp [clamp] at h
  | finite u =>
    simp only [clamp, Option.some.injEq] at h
    split at h
    · omega
    · split at h <;> omega

/-- Rounding to 53 bits does not pass a bound that is itself a multiple of the rounding step. -/
theorem roundTo53_le {y c e : Nat} (he : Nat.log2 y ≤ e + 52) (hy : y ≤ c * 2 ^ e) : roundTo53 y ≤ c * 2 ^ e := by
  unfold roundTo53
  split
  · exact hy
  · have hstep : 0 < 2 ^ (Nat.log2 y - 52) := Nat.two_pow_pos _
    obtain ⟨d, hd⟩ : ∃ d, e = Nat.log2 y - 52 + d := ⟨e - (Nat.log2 y - 52), by omega⟩
    have hc : c * 2 ^ e = (c * 2 ^ d) * 2 ^ (Nat.log2 y - 52) := by
      rw [hd, Nat.pow_add, Nat.mul_assoc, Nat.mul_comm (2 ^ d)]
    generalize 2 ^ (Nat.log2 y - 52) = step at hstep hc ⊢
    have hdiv := Nat.div_add_mod y step
    have hlow : y / step * step ≤ y := Nat.div_mul_le_self y step
    dsimp only
    split
    · rename_i hr
      have hrpos : 0 < y % step := by omega
      have hlt : y / step * step < c * 2 ^ d * step := by
        rw [Nat.mul_comm] at hdiv
        omega
      have := Nat.lt_of_mul_lt_mul_right hlt
      rw [hc]
      exact Nat.mul_le_mul_right step this
    · omega

/-- Q never exceeds 31, in either instance (10_state.md R18). -/
theorem quantiseUnits_le {x : Nat} (q : Quantiser) (h : x ≤ unitsInOne) : quantiseUnits q x ≤ 31 := by
  have h31 : 31 * x ≤ 31 * unitsInOne := Nat.mul_le_mul_left 31 h
  cases q with
  | exact => exact Nat.div_le_of_le_mul (by omega)
  | product64 =>
    have hone := unitsInOne_eq
    obtain ⟨e, he⟩ : ∃ e, e = 1074 := ⟨1074, rfl⟩
    rw [← he] at hone
    have hlt : 31 * x < 2 ^ (e + 5) := by
      rw [Nat.pow_add]
      have := Nat.two_pow_pos e
      omega
    have hlog : Nat.log2 (31 * x) ≤ e + 52 := by
      by_cases h0 : 31 * x = 0
      · rw [h0]
        exact Nat.zero_le _
      · have := (Nat.log2_lt h0).2 hlt
        omega
    refine Nat.div_le_of_le_mul ?_
    have h := roundTo53_le (c := 31) hlog (by rw [hone] at h31; omega)
    rw [hone]
    omega

/-- The level SET_PIXEL stores, from the clamped operand. -/
theorem quantise_eq_some {q : Quantiser} {b : Binary64} {level : Byte} (h : quantise q b = some level) :
    ∃ x, clamp (datum b) = some x ∧ level.toNat = quantiseUnits q x ∧ level.toNat ≤ 31 := by
  simp only [quantise, Option.map_eq_some_iff] at h
  obtain ⟨x, hx, rfl⟩ := h
  have hle := quantiseUnits_le q (clamp_le_one hx)
  have ht : (BitVec.ofNat 8 (quantiseUnits q x)).toNat = quantiseUnits q x := by
    rw [BitVec.toNat_ofNat]
    exact Nat.mod_eq_of_lt (by omega)
  exact ⟨x, hx, ht, by omega⟩

end Sys2Proof.Machine
end

