-- ==== Sys2Proof/Laws/Commands.lean ====
section
/-! SUPPORT. One inversion lemma per command: everything its meaning can answer. Later proofs cite these and unfold no
meaning. -/

namespace Sys2Proof.Machine

theorem State.life_of_not_active {s : State} (h : s.isActive = false) : s.life = .unbuilt ∨ s.life = .failed := by
  unfold State.isActive at h
  cases hl : s.life <;> simp [hl] at h ⊢

theorem State.life_of_active {s : State} (h : s.isActive = true) : ∃ n, s.life = .active n := by
  unfold State.isActive at h
  cases hl : s.life <;> simp [hl] at h ⊢

theorem State.isActive_of_life {s : State} {n : Nat} (h : s.life = .active n) : s.isActive = true := by
  simp [State.isActive, h]

/-- The quantiser has no value exactly for a NaN (R59). -/
theorem quantise_eq_none {q : Quantiser} {b : Binary64} : quantise q b = none ↔ datum b = .nan := by
  simp only [quantise, Option.map_eq_none_iff]
  cases datum b <;> simp [clamp]

/-- Everything SET_PIXEL can do (R80). -/
theorem execSetPixel_cases (s : State) (index : Int) (r g b : Byte) (brightness : Binary64) :
    (s.isActive = false ∧ execSetPixel index r g b brightness s = .refused .notActive) ∨
    (∃ n, s.life = .active n ∧ (index < 0 ∨ (n : Int) ≤ index) ∧
      execSetPixel index r g b brightness s = .next (s.returning (.indexOutOfRange index))) ∨
    (∃ n, s.life = .active n ∧ 0 ≤ index ∧ index < (n : Int) ∧ datum brightness = .nan ∧
      execSetPixel index r g b brightness s = .refused .nanBrightness) ∨
    (∃ n level, s.life = .active n ∧ 0 ≤ index ∧ index < (n : Int) ∧
      quantise s.cfg.quantiser brightness = some level ∧
      execSetPixel index r g b brightness s = .next ((s.setMem (s.mem.setPixel index.toNat
        { brightness5 := level, blue := b, green := g, red := r })).returning .ok)) := by
  cases ha : s.isActive
  · refine .inl ⟨rfl, ?_⟩
    rcases State.life_of_not_active ha with h | h <;> simp [execSetPixel, h]
  · obtain ⟨n, hl⟩ := State.life_of_active ha
    by_cases h : 0 ≤ index ∧ index < (n : Int)
    · have hir : indexInRange index n = true := by simp [indexInRange, h.1, h.2]
      have hc : index.toNat < s.count := by rw [State.count_of_active hl]; omega
      cases hq : quantise s.cfg.quantiser brightness with
      | none =>
        refine .inr (.inr (.inl ⟨n, hl, h.1, h.2, quantise_eq_none.1 hq, ?_⟩))
        simp [execSetPixel, hl, hir, hq]
      | some level =>
        refine .inr (.inr (.inr ⟨n, level, hl, h.1, h.2, rfl, ?_⟩))
        simp [execSetPixel, hl, hir, hq, State.storePixel_ok hc]
    · have hir : indexInRange index n = false := by simp [indexInRange]; omega
      refine .inr (.inl ⟨n, hl, by omega, ?_⟩)
      simp [execSetPixel, hl, hir]

/-- Everything CLEAR can do (R81). -/
theorem execClear_cases (s : State) :
    (s.isActive = false ∧ execClear s = .refused .notActive) ∨
    (s.isActive = true ∧ execClear s = .next (s.zeroBuffer.returning .ok)) := by
  cases ha : s.isActive
  · refine .inl ⟨rfl, ?_⟩
    rcases State.life_of_not_active ha with h | h <;> simp [execClear, h]
  · obtain ⟨n, hl⟩ := State.life_of_active ha
    exact .inr ⟨rfl, by simp [execClear, hl]⟩

/-- The line writes of the SHOW of a state's buffer either all succeed or stop at the first that fails. -/
theorem transmit_outcome (s : State) :
    (s.lineOk.grants (showWrites s.count) ∧ transmit s = .done (s.showed (encodeStream s.pixels))) ∨
    (∃ p line level, s.showPlan[p]? = some (line, level) ∧ s.lineOk.grants p ∧ s.lineOk.answerAt p = false ∧
      transmit s = .raised (s.wroteThenFailed (s.showPlan.take p) line level) (.write line level)) := by
  rcases transmit_cases s with h | ⟨p, x, h⟩
  · exact .inl h
  · exact .inr ⟨p, x.1, x.2, h⟩

/-- Everything SHOW can do (R100, R111). -/
theorem execShow_cases (s : State) :
    (s.isActive = false ∧ execShow s = .refused .notActive) ∨
    (s.isActive = true ∧ s.lineOk.grants (showWrites s.count) ∧
      execShow s = .next ((s.showed (encodeStream s.pixels)).returning .ok)) ∨
    (s.isActive = true ∧ ∃ p line level, s.showPlan[p]? = some (line, level) ∧ s.lineOk.grants p ∧
      s.lineOk.answerAt p = false ∧
      execShow s = .next ((s.wroteThenFailed (s.showPlan.take p) line level).returning
        (.lineAccessFailure (.write line level)))) := by
  cases ha : s.isActive
  · refine .inl ⟨rfl, ?_⟩
    rcases State.life_of_not_active ha with h | h <;> simp [execShow, h]
  · obtain ⟨n, hl⟩ := State.life_of_active ha
    rcases transmit_outcome s with ⟨hg, ht⟩ | ⟨p, line, level, hx, hg, hf, ht⟩
    · exact .inr (.inl ⟨rfl, hg, by simp [execShow, hl, ht]⟩)
    · exact .inr (.inr ⟨rfl, p, line, level, hx, hg, hf, by simp [execShow, hl, ht]⟩)

/-- The state in which NEW shows its zeroed buffer (R130). -/
def State.openedWith (s : State) (n : Nat) : State := { s with openOk := s.openOk.skip 1, life := .active n, mem := [] }

/-- Everything NEW can do (R130, R134). -/
theorem execNew_cases (s : State) (ledCount : Int) :
    (s.life ≠ .unbuilt ∧ execNew ledCount s = .refused .alreadyBuiltOrFailed) ∨
    (s.life = .unbuilt ∧ (ledCount < 0 ∨ (s.cfg.nMax : Int) < ledCount) ∧ execNew ledCount s = .refused .badLedCount) ∨
    (s.life = .unbuilt ∧ 0 ≤ ledCount ∧ ledCount ≤ (s.cfg.nMax : Int) ∧ s.openOk.answerAt 0 = false ∧
      execNew ledCount s = .next (State.failNew { s with openOk := s.openOk.skip 1 } .openLines)) ∨
    (s.life = .unbuilt ∧ 0 ≤ ledCount ∧ ledCount ≤ (s.cfg.nMax : Int) ∧ s.openOk.answerAt 0 = true ∧
      ((s.lineOk.grants (showWrites ledCount.toNat) ∧ execNew ledCount s = .next
          (((s.openedWith ledCount.toNat).showed (encodeStream (s.openedWith ledCount.toNat).pixels)).returning .ok)) ∨
       ∃ p line level, (s.openedWith ledCount.toNat).showPlan[p]? = some (line, level) ∧ s.lineOk.grants p ∧
        s.lineOk.answerAt p = false ∧
        execNew ledCount s = .next (State.failNew ((s.openedWith ledCount.toNat).wroteThenFailed
          ((s.openedWith ledCount.toNat).showPlan.take p) line level) (.write line level)))) := by
  cases hl : s.life with
  | active n => exact .inl ⟨by simp, by simp [execNew, hl]⟩
  | failed => exact .inl ⟨by simp, by simp [execNew, hl]⟩
  | unbuilt =>
    by_cases h : 0 ≤ ledCount ∧ ledCount ≤ (s.cfg.nMax : Int)
    · have had : ledCountAdmitted ledCount s.cfg.nMax = true := by simp [ledCountAdmitted, h.1, h.2]
      cases ho : s.openOk.answerAt 0
      · refine .inr (.inr (.inl ⟨rfl, h.1, h.2, rfl, ?_⟩))
        simp [execNew, hl, had, Oracle.ask_eq, ho]
      · refine .inr (.inr (.inr ⟨rfl, h.1, h.2, rfl, ?_⟩))
        have hnew : execNew ledCount s =
            match transmit (s.openedWith ledCount.toNat) with
            | .done s1 => .next (s1.returning .ok)
            | .raised s1 site => .next (s1.failNew site) := by
          simp only [execNew, hl, had, Oracle.ask_eq, ho, if_true]
          rfl
        rcases transmit_outcome (s.openedWith ledCount.toNat) with ⟨hg, ht⟩ | ⟨p, line, level, hx, hg, hf, ht⟩
        · exact .inl ⟨hg, by rw [hnew, ht]⟩
        · exact .inr ⟨p, line, level, hx, hg, hf, by rw [hnew, ht]⟩
    · have had : ledCountAdmitted ledCount s.cfg.nMax = false := by simp [ledCountAdmitted]; omega
      exact .inr (.inl ⟨rfl, by omega, by simp [execNew, hl, had]⟩)

/-- Everything DISPOSE can do (R131, R135). -/
theorem execDispose_cases (s : State) :
    (s.isActive = false ∧ execDispose s = .refused .notActive) ∨
    (s.isActive = true ∧ s.lineOk.grants (showWrites s.count) ∧
      execDispose s = .next ((s.zeroBuffer.showed (encodeStream s.zeroBuffer.pixels)).release.returning
        (disposeStatus none (s.releaseOk.answerAt 0)))) ∨
    (s.isActive = true ∧ ∃ p line level, s.zeroBuffer.showPlan[p]? = some (line, level) ∧ s.lineOk.grants p ∧
      s.lineOk.answerAt p = false ∧
      execDispose s = .next ((s.zeroBuffer.wroteThenFailed (s.zeroBuffer.showPlan.take p) line level).release.returning
        (.lineAccessFailure (.write line level)))) := by
  cases ha : s.isActive
  · refine .inl ⟨rfl, ?_⟩
    rcases State.life_of_not_active ha with h | h <;> simp [execDispose, h]
  · obtain ⟨n, hl⟩ := State.life_of_active ha
    rcases transmit_outcome s.zeroBuffer with ⟨hg, ht⟩ | ⟨p, line, level, hx, hg, hf, ht⟩
    · refine .inr (.inl ⟨rfl, hg, ?_⟩)
      simp only [execDispose, hl, ht, Oracle.ask_eq]
      rfl
    · refine .inr (.inr ⟨rfl, p, line, level, hx, hg, hf, ?_⟩)
      simp only [execDispose, hl, ht, Oracle.ask_eq]
      rfl

/-- A run of line writes issued by itself either makes them all or stops at the first that fails. -/
theorem micro_outcome (writes : List (Line × Bool)) (s : State) :
    (s.lineOk.grants writes.length ∧ (drive writes s).micro = .next (s.wrote writes)) ∨
    (∃ p line level, writes[p]? = some (line, level) ∧ s.lineOk.grants p ∧ s.lineOk.answerAt p = false ∧
      (drive writes s).micro = .next ((s.wroteThenFailed (writes.take p) line level).returning
        (.lineAccessFailure (.write line level)))) := by
  rcases Oracle.grants_or_first_failure s.lineOk writes.length with h | ⟨p, hp, hg, hf⟩
  · exact .inl ⟨h, by rw [drive_grants h]; rfl⟩
  · have hx : writes[p]? = some (writes[p].1, writes[p].2) := List.getElem?_eq_getElem hp
    exact .inr ⟨p, _, _, hx, hg, hf, by rw [drive_first_failure hx hg hf]; rfl⟩

/-- Every instruction below the commands is the run of its line writes (R103 to R109). -/
theorem exec_eq_drive {i : Instr} (h : i.isCommand = false) (s : State) : exec i s = (drive (microWrites i) s).micro := by
  have hled : ∀ b5 : BitVec 5, ledHeader ||| b5.setWidth 8 = (0b111#3 ++ b5 : BitVec 8) := by decide
  cases i <;> simp only [Instr.isCommand, Bool.true_eq_false] at h
  · exact congrArg Attempt.micro (sendBytes_eq_drive _ _)
  · rename_i b5 blue green red
    refine (congrArg Attempt.micro (sendBytes_eq_drive _ _)).trans ?_
    rw [microWrites, ledFrameBytes, hled]
  · exact congrArg Attempt.micro (sendBytes_eq_drive _ _)
  · exact congrArg Attempt.micro (sendByte_eq_drive _ _)
  · exact congrArg Attempt.micro (sendBit_eq_drive _ _)
  · exact congrArg Attempt.micro (lineWrite_eq_drive _ _ _)

end Sys2Proof.Machine
end

