-- ==== Sys2Proof/Laws/Encoding.lean ====
section
/-! SUPPORT. The fields of the command word and of the LED frame read back from the words the encoder assembles. -/

namespace Sys2Proof

/-- Every bit of a command word, by the field it lies in (R58). -/
theorem commandWord_getLsbD (op r g b : Byte) (n : BitVec 32) (br : Binary64) (i : Nat) :
    (commandWord op r g b n br).getLsbD i =
      if i < 64 then br.getLsbD i else if i < 96 then n.getLsbD (i - 64) else if i < 104 then b.getLsbD (i - 96)
      else if i < 112 then g.getLsbD (i - 104) else if i < 120 then r.getLsbD (i - 112) else op.getLsbD (i - 120) := by
  change BitVec.getLsbD (w := 8 + 8 + 8 + 8 + 32 + 64) (op ++ r ++ g ++ b ++ n ++ br) i = _
  simp only [BitVec.getLsbD_append]
  have hs : i - 64 - 32 = i - 96 ∧ i - 96 - 8 = i - 104 ∧ i - 104 - 8 = i - 112 ∧ i - 112 - 8 = i - 120 := by omega
  have h1 : (i - 64 < 32) = (i < 96) := by simp only [eq_iff_iff]; omega
  have h2 : (i - 96 < 8) = (i < 104) := by simp only [eq_iff_iff]; omega
  have h3 : (i - 104 < 8) = (i < 112) := by simp only [eq_iff_iff]; omega
  have h4 : (i - 112 < 8) = (i < 120) := by simp only [eq_iff_iff]; omega
  simp only [hs, h1, h2, h3, h4]

/-- Every field of a command word reads back (R58). -/
theorem commandWord_fields (op r g b : Byte) (n : BitVec 32) (br : Binary64) :
    opField (commandWord op r g b n br) = op ∧ redField (commandWord op r g b n br) = r ∧
    greenField (commandWord op r g b n br) = g ∧ blueField (commandWord op r g b n br) = b ∧
    nField (commandWord op r g b n br) = n ∧ brightnessField (commandWord op r g b n br) = br := by
  refine ⟨?_, ?_, ?_, ?_, ?_, ?_⟩ <;>
    simp only [opField, redField, greenField, blueField, nField, brightnessField] <;>
    apply BitVec.eq_of_getLsbD_eq <;> intro i hi <;> rw [BitVec.getLsbD_extractLsb', commandWord_getLsbD] <;> 
      simp only [hi, decide_true, Bool.true_and] 
  · repeat rw [if_neg (by omega)]
    congr 1; omega
  · repeat rw [if_neg (by omega)]
    rw [if_pos (by omega)]
    congr 1; omega
  · repeat rw [if_neg (by omega)]
    rw [if_pos (by omega)]
    congr 1; omega
  · repeat rw [if_neg (by omega)]
    rw [if_pos (by omega)]
    congr 1; omega
  · repeat rw [if_neg (by omega)]
    rw [if_pos (by omega)]
    congr 1; omega
  · rw [if_pos (by omega)]
    congr 1; omega

/-- Every bit of an LED frame, by the field it lies in (R51). -/
theorem ledWord_getLsbD (b5 : BitVec 5) (blue green red : Byte) (i : Nat) :
    (ledWord b5 blue green red).getLsbD i =
      if i < 8 then red.getLsbD i else if i < 16 then green.getLsbD (i - 8) else if i < 24 then blue.getLsbD (i - 16)
      else if i < 29 then b5.getLsbD (i - 24) else (0b111#3).getLsbD (i - 29) := by
  change BitVec.getLsbD (w := 3 + 5 + 8 + 8 + 8) (0b111#3 ++ b5 ++ blue ++ green ++ red) i = _
  simp only [BitVec.getLsbD_append]
  have hs : i - 8 - 8 = i - 16 ∧ i - 16 - 8 = i - 24 ∧ i - 24 - 5 = i - 29 := by omega
  have h1 : (i - 8 < 8) = (i < 16) := by simp only [eq_iff_iff]; omega
  have h2 : (i - 16 < 8) = (i < 24) := by simp only [eq_iff_iff]; omega
  have h3 : (i - 24 < 5) = (i < 29) := by simp only [eq_iff_iff]; omega
  simp only [hs, h1, h2, h3]

/-- Every field of an LED frame reads back (R51). -/
theorem ledWord_fields (b5 : BitVec 5) (blue green red : Byte) :
    (ledWord b5 blue green red).extractLsb' 29 3 = 0b111#3 ∧ (ledWord b5 blue green red).extractLsb' 24 5 = b5 ∧
    (ledWord b5 blue green red).extractLsb' 16 8 = blue ∧ (ledWord b5 blue green red).extractLsb' 8 8 = green ∧
    (ledWord b5 blue green red).extractLsb' 0 8 = red := by
  refine ⟨?_, ?_, ?_, ?_, ?_⟩ <;>
    apply BitVec.eq_of_getLsbD_eq <;> intro i hi <;> rw [BitVec.getLsbD_extractLsb', ledWord_getLsbD] <;>
      simp only [hi, decide_true, Bool.true_and]
  · repeat rw [if_neg (by omega)]
    congr 1; omega
  · repeat rw [if_neg (by omega)]
    rw [if_pos (by omega)]
    congr 1; omega
  · repeat rw [if_neg (by omega)]
    rw [if_pos (by omega)]
    congr 1; omega
  · repeat rw [if_neg (by omega)]
    rw [if_pos (by omega)]
    congr 1; omega
  · rw [if_pos (by omega)]
    congr 1; omega

theorem opField_commandWord (op r g b : Byte) (n : BitVec 32) (br : Binary64) :
    opField (commandWord op r g b n br) = op := (commandWord_fields op r g b n br).1
theorem redField_commandWord (op r g b : Byte) (n : BitVec 32) (br : Binary64) :
    redField (commandWord op r g b n br) = r := (commandWord_fields op r g b n br).2.1
theorem greenField_commandWord (op r g b : Byte) (n : BitVec 32) (br : Binary64) :
    greenField (commandWord op r g b n br) = g := (commandWord_fields op r g b n br).2.2.1
theorem blueField_commandWord (op r g b : Byte) (n : BitVec 32) (br : Binary64) :
    blueField (commandWord op r g b n br) = b := (commandWord_fields op r g b n br).2.2.2.1
theorem nField_commandWord (op r g b : Byte) (n : BitVec 32) (br : Binary64) :
    nField (commandWord op r g b n br) = n := (commandWord_fields op r g b n br).2.2.2.2.1
theorem brightnessField_commandWord (op r g b : Byte) (n : BitVec 32) (br : Binary64) :
    brightnessField (commandWord op r g b n br) = br := (commandWord_fields op r g b n br).2.2.2.2.2

/-- The integer operand of a well-formed instruction survives its 32-bit field (R52). -/
theorem toInt_ofInt_of_fits {x : Int} (h : fitsInt32 x = true) : (BitVec.ofInt 32 x).toInt = x := by
  simp only [fitsInt32, Bool.and_eq_true, decide_eq_true_eq] at h
  rw [BitVec.toInt_ofInt]
  exact Int.bmod_eq_of_le (by omega) (by omega)

/-- What a 32-bit field holds is always well-formed (R52). -/
theorem fits_toInt (n : BitVec 32) : fitsInt32 n.toInt = true := by
  have h1 := BitVec.toInt_lt (x := n)
  have h2 := BitVec.le_toInt (x := n)
  simp only [fitsInt32, Bool.and_eq_true, decide_eq_true_eq]
  omega

theorem commandWord_of_fields (w : CommandWord) :
    commandWord (opField w) (redField w) (greenField w) (blueField w) (nField w) (brightnessField w) = w := by
  apply BitVec.eq_of_getLsbD_eq
  intro i hi
  rw [commandWord_getLsbD]
  simp only [opField, redField, greenField, blueField, nField, brightnessField, BitVec.getLsbD_extractLsb']
  repeat' split
  all_goals
    first
    | (rw [decide_eq_true (by omega), Bool.true_and]; congr 1; omega)

end Sys2Proof
end

