-- ==== Sys2Proof/Laws/PerInstr.lean ====
section
/-! SUPPORT. What holds of every instruction as syntax, one lemma per constructor (LAWS.json). -/

namespace Sys2Proof.Laws.EncodedAs

/-- An instruction has an encoding exactly if it is a host command or a wire frame (30_encoding.md R69); a command is
encoded as a command word whose `op` is one of the five codes (R60), and a frame as a frame word. -/
def Statement (i : Instr) : Prop :=
  (encode i).isSome = (i.isCommand || i.isFrame) ∧
  (∀ w, encode i = some (.command w) → i.isCommand = true ∧ opField w ∈ [0x01#8, 0x02#8, 0x03#8, 0x04#8, 0x05#8]) ∧
  (∀ w, encode i = some (.frame w) → i.isFrame = true)

/-- Shared by the five commands: the word is assembled with a live `op`. -/
theorem of_commandWord {i : Instr} {op r g b : Byte} {n : BitVec 32} {br : Binary64}
    (hi : encode i = some (.command (commandWord op r g b n br))) (hc : i.isCommand = true)
    (hop : op ∈ [0x01#8, 0x02#8, 0x03#8, 0x04#8, 0x05#8]) : Statement i := by
  refine ⟨by rw [hi, hc]; rfl, fun w hw => ⟨hc, ?_⟩, fun w hw => ?_⟩
  · rw [hi] at hw
    cases hw
    rwa [opField_commandWord]
  · rw [hi] at hw
    cases hw

/-- Shared by the three frames. -/
theorem of_frameWord {i : Instr} {v : FrameWord} (hi : encode i = some (.frame v)) (hf : i.isFrame = true) :
    Statement i := by
  refine ⟨by rw [hi, hf, Bool.or_true]; rfl, fun w hw => ?_, fun _ _ => hf⟩
  rw [hi] at hw
  cases hw

/-- Shared by the three internal micro-operations. -/
theorem of_none {i : Instr} (hi : encode i = none) (hk : (i.isCommand || i.isFrame) = false) : Statement i := by
  refine ⟨by rw [hi, hk]; rfl, fun w hw => ?_, fun w hw => ?_⟩ <;> rw [hi] at hw <;> cases hw

theorem new (ledCount : Int) : Statement (.new ledCount) := of_commandWord rfl rfl (by decide)
theorem setPixel (index : Int) (red green blue : Byte) (brightness : Binary64) :
    Statement (.setPixel index red green blue brightness) := of_commandWord rfl rfl (by decide)
theorem clear : Statement .clear := of_commandWord rfl rfl (by decide)
theorem showBuffer : Statement .showBuffer := of_commandWord rfl rfl (by decide)
theorem dispose : Statement .dispose := of_commandWord rfl rfl (by decide)
theorem startFrame : Statement .startFrame := of_frameWord rfl rfl
theorem led (brightness5 : BitVec 5) (blue green red : Byte) : Statement (.led brightness5 blue green red) :=
  of_frameWord rfl rfl
theorem endFrame : Statement .endFrame := of_frameWord rfl rfl
theorem sendByte (v : Byte) : Statement (.sendByte v) := of_none rfl rfl
theorem sendBit (b : Bool) : Statement (.sendBit b) := of_none rfl rfl
theorem lineWrite (line : Line) (level : Bool) : Statement (.lineWrite line level) := of_none rfl rfl

end Sys2Proof.Laws.EncodedAs
end

