-- ==== Sys2Proof/Laws/Step.lean ====
section
/-! SUPPORT. What one step can do, once: the cases of `step`, of `resume`, of an instruction below the commands, and of a
command that answers a next state. Proofs about every step cite these and unfold nothing. -/

namespace Sys2Proof.Machine

/-- Everything the next line write of a running SHOW can do (R36, R109). -/
theorem resume_cases (p : TxPos) (s : State) :
  (s.streamByte p.k = none ∧ resume p s = .fault (.noSuchStreamPosition p.k)) ∨
  (∃ byte, s.streamByte p.k = some byte ∧ s.lineOk.answerAt 0 = true ∧
     resume p s = .next (if (s.tx.advance (streamBytes s.count)) = .idle then (s.wrote [writeAt byte p]).returning .ok else s.wrote [writeAt byte p])) ∨
  (∃ byte, s.streamByte p.k = some byte ∧ s.lineOk.answerAt 0 = false ∧
     resume p s = .next ((s.wroteThenFailed [] (writeAt byte p).1 (writeAt byte p).2).returning (.lineAccessFailure (.write (writeAt byte p).1 (writeAt byte p).2)))) := by
  unfold resume
  cases hb : s.streamByte p.k with
  | none => exact .inl ⟨rfl, rfl⟩
  | some byte =>
    cases ha : s.lineOk.answerAt 0
    · refine .inr (.inr ⟨byte, rfl, rfl, ?_⟩)
      dsimp only; rw [lineWrite_failed ha]
    · refine .inr (.inl ⟨byte, rfl, rfl, ?_⟩)
      dsimp only; rw [lineWrite_ok ha]
      have : (s.wrote [((writeAt byte p).1, (writeAt byte p).2)]).tx = s.tx.advance (streamBytes s.count) := rfl
      simp only [this]
      split <;> rfl

/-- Everything a step that answers a next state can have been. -/
theorem step_cases {s t : State} (h : step s = .next t) :
  (∃ p, s.tx = .pos p ∧ resume p s = .next t) ∨
  (∃ w i, s.tx = .idle ∧ s.frameSlot = some w ∧ decodeFrame w = .ok i ∧ exec i { s with frameSlot := none } = .next t) ∨
  (∃ w rest i, s.tx = .idle ∧ s.frameSlot = none ∧ s.hostCommands = w :: rest ∧ decodeCommand w = .ok i ∧ exec i { s with hostCommands := rest } = .next t) ∨
  (s.tx = .idle ∧ t = s) := by
  unfold step fetch at h
  cases htx : s.tx with
  | pos p => rw [htx] at h; exact .inl ⟨p, rfl, h⟩
  | idle =>
    rw [htx] at h
    cases hf : s.frameSlot with
    | some w =>
      rw [hf] at h
      simp only [fetchFrame] at h
      cases hd : decodeFrame w with
      | error e => rw [hd] at h; cases h
      | ok i => rw [hd] at h; exact .inr (.inl ⟨w, i, rfl, rfl, hd, by simpa only [htx] using h⟩)
    | none =>
      rw [hf] at h
      cases hc : s.hostCommands with
      | nil => rw [hc] at h; cases h; exact .inr (.inr (.inr ⟨rfl, rfl⟩))
      | cons w rest =>
        rw [hc] at h
        simp only [fetchCommand] at h
        cases hd : decodeCommand w with
        | error e => rw [hd] at h; cases h
        | ok i => rw [hd] at h; exact .inr (.inr (.inl ⟨w, rest, i, rfl, rfl, rfl, hd, by simpa only [htx, hf] using h⟩))

/-- A frame word never decodes to a command. -/
theorem decodeFrame_micro {w : FrameWord} {i : Instr} (h : decodeFrame w = .ok i) : i.isCommand = false := by
  unfold decodeFrame decodeLed at h
  split at h
  · cases h; rfl
  split at h
  · cases h; rfl
  split at h <;> cases h
  rfl

/-- A command word decodes only to a command. -/
theorem decodeCommand_cmd {w : CommandWord} {i : Instr} (h : decodeCommand w = .ok i) : i.isCommand = true := by
  unfold decodeCommand at h
  split at h
  · cases h; rfl
  split at h
  · cases h; rfl
  split at h
  · cases h; rfl
  split at h
  · cases h; rfl
  split at h <;> cases h
  rfl

/-- Everything an instruction below the commands can leave. -/
theorem exec_micro_cases {i : Instr} {s t : State} (hc : i.isCommand = false) (h : exec i s = .next t) :
  t = s.wrote (microWrites i) ∨ ∃ ws line level, t = (s.wroteThenFailed ws line level).returning (.lineAccessFailure (.write line level)) := by
  rw [exec_eq_drive hc] at h
  rcases micro_outcome (microWrites i) s with ⟨-, k⟩ | ⟨p, line, level, hx, -, hf, k⟩ <;> rw [k] at h <;> cases h
  · exact .inl rfl
  · exact .inr ⟨_, _, _, rfl⟩

/-- Every shape a command's next state can have. -/
theorem command_shape {i : Instr} {s t : State} (hc : i.isCommand = true) (h : exec i s = .next t) :
  (∃ index r g b br status, i = .setPixel index r g b br ∧ t = s.returning status) ∨
  (∃ index r g b br n level, i = .setPixel index r g b br ∧ s.life = .active n ∧ 0 ≤ index ∧ index < n ∧ level.toNat ≤ 31 ∧
     t = (s.setMem (s.mem.setPixel index.toNat ⟨level, b, g, r⟩)).returning .ok) ∨
  (s.isActive = true ∧ t = s.zeroBuffer.returning .ok) ∨
  (s.isActive = true ∧ ∃ bytes, t = (s.showed bytes).returning .ok) ∨
  (s.isActive = true ∧ ∃ ws line level status, t = (s.wroteThenFailed ws line level).returning status) ∨
  (s.life = .unbuilt ∧ t = State.failNew { s with openOk := s.openOk.skip 1 } .openLines) ∨
  (∃ c : Int, s.life = .unbuilt ∧ c.toNat ≤ s.cfg.nMax ∧ ∃ bytes, t = ((s.openedWith c.toNat).showed bytes).returning .ok) ∨
  (∃ c : Int, s.life = .unbuilt ∧ c.toNat ≤ s.cfg.nMax ∧ ∃ ws line level site, t = State.failNew ((s.openedWith c.toNat).wroteThenFailed ws line level) site) ∨
  (s.isActive = true ∧ ∃ bytes status, t = (s.zeroBuffer.showed bytes).release.returning status) ∨
  (s.isActive = true ∧ ∃ ws line level status, t = (s.zeroBuffer.wroteThenFailed ws line level).release.returning status) := by
  cases i <;> simp [Instr.isCommand] at hc
  · rename_i c
    have h : execNew c s = .next t := h
    rcases execNew_cases s c with ⟨-, k⟩ | ⟨-, -, k⟩ | ⟨hl, k0, k1, ko, k⟩ | ⟨hl, k0, k1, ko, ⟨kg, k⟩ | ⟨p, line, level, kx, kg, kf, k⟩⟩ <;> rw [k] at h <;> cases h
    · exact .inr (.inr (.inr (.inr (.inr (.inl ⟨hl, rfl⟩)))))
    · exact .inr (.inr (.inr (.inr (.inr (.inr (.inl ⟨c, hl, by omega, _, rfl⟩))))))
    · exact .inr (.inr (.inr (.inr (.inr (.inr (.inr (.inl ⟨c, hl, by omega, _, _, _, _, rfl⟩)))))))
  · rename_i index r g b br
    have h : execSetPixel index r g b br s = .next t := h
    rcases execSetPixel_cases s index r g b br with ⟨-, k⟩ | ⟨n, hl, -, k⟩ | ⟨n, hl, h0, h1, hn, k⟩ | ⟨n, level, hl, h0, h1, hq, k⟩ <;> rw [k] at h <;> cases h
    · exact .inl ⟨_, _, _, _, _, _, rfl, rfl⟩
    · obtain ⟨_, _, _, hle⟩ := quantise_eq_some hq
      exact .inr (.inl ⟨_, _, _, _, _, n, level, rfl, hl, h0, h1, hle, rfl⟩)
  · have h : execClear s = .next t := h
    rcases execClear_cases s with ⟨-, k⟩ | ⟨ha, k⟩ <;> rw [k] at h <;> cases h
    exact .inr (.inr (.inl ⟨ha, rfl⟩))
  · have h : execShow s = .next t := h
    rcases execShow_cases s with ⟨-, k⟩ | ⟨ha, -, k⟩ | ⟨ha, p, line, level, -, -, -, k⟩ <;> rw [k] at h <;> cases h
    · exact .inr (.inr (.inr (.inl ⟨ha, _, rfl⟩)))
    · exact .inr (.inr (.inr (.inr (.inl ⟨ha, _, _, _, _, rfl⟩))))
  · have h : execDispose s = .next t := h
    rcases execDispose_cases s with ⟨-, k⟩ | ⟨ha, -, k⟩ | ⟨ha, p, line, level, -, -, -, k⟩ <;> rw [k] at h <;> cases h
    · exact .inr (.inr (.inr (.inr (.inr (.inr (.inr (.inr (.inl ⟨ha, _, _, rfl⟩))))))))
    · exact .inr (.inr (.inr (.inr (.inr (.inr (.inr (.inr (.inr ⟨ha, _, _, _, _, rfl⟩))))))))

end Sys2Proof.Machine
end

