-- ==== Sys2Proof/Laws/Positions.lean ====
section
/-! SUPPORT. The stream and the sequencer by position: which write stands at a linear position, where TX is after that
many writes, and a run one step longer. -/

namespace Sys2Proof.Machine

/-- The write at a linear position of a stream is a write of the byte there. -/
theorem stream_get (bs : List Byte) (p : Nat) : (streamWrites bs)[p]? = (bs[p/24]?).bind fun b => (byteWrites b)[p%24]? := by
  induction bs generalizing p with
  | nil => simp [streamWrites]
  | cons b bs ih =>
    rw [streamWrites, List.flatMap_cons]
    by_cases h : p < 24
    · rw [List.getElem?_append_left (by rw [byteWrites_length]; omega)]
      have h1 : p/24 = 0 := by omega
      have h2 : p % 24 = p := by omega
      rw [h1, h2]; rfl
    · rw [List.getElem?_append_right (by rw [byteWrites_length]; omega), byteWrites_length]
      have := ih (p-24)
      rw [streamWrites] at this
      rw [this]
      have h1 : p/24 = (p-24)/24 + 1 := by omega
      have h2 : p % 24 = (p-24)%24 := by omega
      rw [h1, h2]; rfl

/-- The closed form of the 24 writes of a byte (R115). -/
theorem byte_get (b : Byte) (m : Nat) (h : m < 24) : (byteWrites b)[m]? = some (if m % 3 = 0 then (.data, b.getLsbD (7 - m/3)) else if m % 3 = 1 then (.clock, true) else (.clock, false)) := by
  have : m = 0 ∨ m = 1 ∨ m = 2 ∨ m = 3 ∨ m = 4 ∨ m = 5 ∨ m = 6 ∨ m = 7 ∨ m = 8 ∨ m = 9 ∨ m = 10 ∨ m = 11 ∨ m = 12 ∨ m = 13 ∨ m = 14 ∨ m = 15 ∨ m = 16 ∨ m = 17 ∨ m = 18 ∨ m = 19 ∨ m = 20 ∨ m = 21 ∨ m = 22 ∨ m = 23 := by omega
  rcases this with h|h|h|h|h|h|h|h|h|h|h|h|h|h|h|h|h|h|h|h|h|h|h|h <;> subst h <;> rfl

/-- The position of line write number `p` of a stream (R115). -/
def posOf (p : Nat) : TxPos := { k := p / 24, j := ⟨7 - (p % 24) / 3, by omega⟩, ph := ⟨p % 3, by omega⟩ }

theorem TxPos.eq_of_vals {p q : TxPos} (hk : p.k = q.k) (hj : p.j.val = q.j.val) (hph : p.ph.val = q.ph.val) : p = q := by
  rcases p with ⟨k, j, ph⟩
  rcases q with ⟨k', j', ph'⟩
  obtain rfl : k = k' := hk
  obtain rfl : j = j' := Fin.ext hj
  obtain rfl : ph = ph' := Fin.ext hph
  rfl

/-- Everything the sequencer can do with one successful write (R14). -/
theorem TxPos.next_cases (p : TxPos) (total : Nat) :
    (p.ph.val < 2 ∧ ∃ q, p.next total = .pos q ∧ q.k = p.k ∧ q.j.val = p.j.val ∧ q.ph.val = p.ph.val + 1) ∨
    (p.ph.val = 2 ∧ 0 < p.j.val ∧
      ∃ q, p.next total = .pos q ∧ q.k = p.k ∧ q.j.val = p.j.val - 1 ∧ q.ph.val = 0) ∨
    (p.ph.val = 2 ∧ p.j.val = 0 ∧ p.k + 1 < total ∧
      ∃ q, p.next total = .pos q ∧ q.k = p.k + 1 ∧ q.j.val = 7 ∧ q.ph.val = 0) ∨
    (p.ph.val = 2 ∧ p.j.val = 0 ∧ total ≤ p.k + 1 ∧ p.next total = .idle) := by
  unfold TxPos.next
  split
  · rename_i h
    exact .inl ⟨h, _, rfl, rfl, rfl, rfl⟩
  have hph : p.ph.val = 2 := by omega
  split
  · rename_i h
    exact .inr (.inl ⟨hph, h, _, rfl, rfl, rfl, rfl⟩)
  have hj : p.j.val = 0 := by omega
  split
  · rename_i h
    exact .inr (.inr (.inl ⟨hph, hj, h, _, rfl, rfl, rfl, rfl⟩))
  · exact .inr (.inr (.inr ⟨hph, hj, by omega, rfl⟩))

/-- Within a stream the sequencer moves to the next linear position. -/
theorem posOf_next (p total : Nat) (h : p + 1 < 24 * total) : (posOf p).next total = .pos (posOf (p + 1)) := by
  have hk : (posOf p).k = p / 24 := rfl
  have hj : (posOf p).j.val = 7 - p % 24 / 3 := rfl
  have hph : (posOf p).ph.val = p % 3 := rfl
  have hk' : (posOf (p + 1)).k = (p + 1) / 24 := rfl
  have hj' : (posOf (p + 1)).j.val = 7 - (p + 1) % 24 / 3 := rfl
  have hph' : (posOf (p + 1)).ph.val = (p + 1) % 3 := rfl
  rcases TxPos.next_cases (posOf p) total with ⟨h1, q, hq, a, b, c⟩ | ⟨h1, h2, q, hq, a, b, c⟩ |
    ⟨h1, h2, h3, q, hq, a, b, c⟩ | ⟨h1, h2, h3, hq⟩
  · rw [hq]; congr 1; apply TxPos.eq_of_vals <;> omega
  · rw [hq]; congr 1; apply TxPos.eq_of_vals <;> omega
  · rw [hq]; congr 1; apply TxPos.eq_of_vals <;> omega
  · omega

/-- After the last write of a stream the sequencer is IDLE. -/
theorem posOf_last (p total : Nat) (h : p + 1 = 24 * total) : (posOf p).next total = .idle := by
  have hk : (posOf p).k = p / 24 := rfl
  have hj : (posOf p).j.val = 7 - p % 24 / 3 := rfl
  have hph : (posOf p).ph.val = p % 3 := rfl
  rcases TxPos.next_cases (posOf p) total with ⟨h1, -⟩ | ⟨h1, h2, -⟩ | ⟨h1, h2, h3, -⟩ | ⟨-, -, -, hq⟩
  · omega
  · omega
  · omega
  · exact hq

/-- One more write, at the end. -/
theorem advanceBy_succ (total p : Nat) (t : Tx) : Tx.advanceBy total (p+1) t = (Tx.advanceBy total p t).advance total := by
  induction p generalizing t with
  | zero => rfl
  | succ p ih => exact ih _

/-- TX after `p` writes of a SHOW. -/
theorem advanceBy_start (total p : Nat) (h : p < 24 * total) : Tx.advanceBy total p (.pos TxPos.start) = .pos (posOf p) := by
  induction p with
  | zero => rfl
  | succ p ih => rw [advanceBy_succ, ih (by omega)]; exact posOf_next p total h

/-- The write due at a position is the write of the stream there. -/
theorem writeAt_posOf (bs : List Byte) (p : Nat) (b : Byte) (h : bs[p/24]? = some b) : (streamWrites bs)[p]? = some (writeAt b (posOf p)) := by
  rw [stream_get, h, Option.bind_some, byte_get _ _ (by omega)]
  have : p % 24 % 3 = p % 3 := by omega
  rw [this]; rfl

/-- Writes after writes. -/
theorem wrote_append (s : State) (xs ys : List (Line × Bool)) : (s.wrote xs).wrote ys = s.wrote (xs ++ ys) := by
  induction xs generalizing s with
  | nil => rw [State.wrote_nil, List.nil_append]
  | cons x xs ih => rw [← State.wrote_cons, ih, State.wrote_cons, List.cons_append]
/-- Writes that stop at a failure, after writes. -/
theorem wrote_append_failed (s : State) (xs ys : List (Line × Bool)) (line level) : (s.wrote xs).wroteThenFailed ys line level = s.wroteThenFailed (xs ++ ys) line level := by
  induction xs generalizing s with
  | nil => rw [State.wrote_nil, List.nil_append]
  | cons x xs ih => rw [← State.wrote_cons, ih, State.wrote_cons_failed, List.cons_append]

/-- A run of any machine one step longer. -/
theorem run_one_more (M : Host.Core) (k : Nat) (s t : M.State) (h : M.run k s = .next t) :
    M.run (k + 1) s = M.step t := by
  induction k generalizing s with
  | zero =>
    simp only [Host.Core.run, Host.Outcome.next.injEq] at h
    subst h
    simp only [Host.Core.run]
    cases M.step s <;> rfl
  | succ k ih =>
    rw [Host.Core.run] at h ⊢
    cases hs : M.step s with
    | next u => rw [hs] at h; exact ih u h
    | fault r => rw [hs] at h; cases h
    | refused r => rw [hs] at h; cases h

/-- A run of this machine one step longer. -/
theorem run_succ (k : Nat) (s t : State) (h : Host.Core.run Sys2Proof.core k s = .next t) :
    Host.Core.run Sys2Proof.core (k + 1) s = step t :=
  run_one_more Sys2Proof.core k s t h

end Sys2Proof.Machine
end

