-- ==== Sys2Proof/Laws/Runs.lean ====
section
/-! SUPPORT. Runs of a host as lists of commands, and what one sent byte gives to the two recoveries of a trace. -/

namespace Sys2Proof.Machine

/-- A run of one part and then another. -/
theorem hostRun_append (first second : List CommandWord) (s : State) :
    hostRun (first ++ second) s =
      match hostRun first s with
      | .next t => hostRun second t
      | .fault f => .fault f
      | .refused r => .refused r := by
  induction first generalizing s with
  | nil => rfl
  | cons w rest ih =>
    rw [List.cons_append, hostRun, hostRun]
    cases step { s with hostCommands := [w] } with
    | next t => exact ih t
    | fault f => rfl
    | refused r => rfl

/-- A run that ends in a next state is a run to some state and one command from there. -/
theorem hostRun_snoc {words : List CommandWord} {w : CommandWord} {s t : State}
    (h : hostRun (words ++ [w]) s = .next t) :
    ∃ u, hostRun words s = .next u ∧ step { u with hostCommands := [w] } = .next t := by
  rw [hostRun_append] at h
  cases hu : hostRun words s with
  | fault f => rw [hu] at h; cases h
  | refused r => rw [hu] at h; cases h
  | next u =>
    rw [hu] at h
    refine ⟨u, rfl, ?_⟩
    simp only [hostRun] at h
    cases hs : step { u with hostCommands := [w] } with
    | next v => rw [hs] at h; exact h
    | fault f => rw [hs] at h; cases h
    | refused r => rw [hs] at h; cases h

/-- A step with one command waiting and no SHOW running is that command. -/
theorem step_one_command {s : State} (htx : s.tx = .idle) (hf : s.frameSlot = none) {w : CommandWord} {i : Instr}
    (hd : decodeCommand w = .ok i) : step { s with hostCommands := [w] } = exec i { s with hostCommands := [] } := by
  simp only [step, fetch, htx, hf, fetchCommand, hd]

/-- A step with one command waiting that answers a next state ran that command. -/
theorem step_one_command_inv {s t : State} (htx : s.tx = .idle) (hf : s.frameSlot = none) {w : CommandWord}
    (h : step { s with hostCommands := [w] } = .next t) :
    ∃ i, decodeCommand w = .ok i ∧ exec i { s with hostCommands := [] } = .next t := by
  cases hd : decodeCommand w with
  | ok i => exact ⟨i, rfl, by rwa [step_one_command htx hf hd] at h⟩
  | error e =>
    simp only [step, fetch, htx, hf, fetchCommand, hd] at h
    cases h

/-- A run of one command that returns. -/
theorem hostRun_single {s t : State} (htx : s.tx = .idle) (hf : s.frameSlot = none) {w : CommandWord} {i : Instr}
    (hd : decodeCommand w = .ok i) (h : exec i { s with hostCommands := [] } = .next t) :
    hostRun [w] s = .next t := by
  rw [hostRun, step_one_command htx hf hd, h]
  rfl

/-- A byte sent with CLOCK at a level that counts gives its eight bits, and leaves CLOCK at 0. -/
theorem sampleBits_byte {counts : LineLevel → Bool} {clock : LineLevel} (h0 : counts (.driven false) = true)
    (hc : counts clock = true) (data : LineLevel) (v : Byte) (rest : List Event) :
    sampleBits counts data clock (succeeded (byteWrites v) ++ rest) =
      (bitsMsbFirst v).map .driven ++ sampleBits counts (.driven (v.getLsbD 0)) (.driven false) rest := by
  simp [succeeded, byteWrites, bitsMsbFirst, bitWrites, sampleBits, Event.leaves, h0, hc]

/-- A byte sent with CLOCK at a level that does not count loses its first bit. -/
theorem sampleBits_byte_first_lost {counts : LineLevel → Bool} {clock : LineLevel} (h0 : counts (.driven false) = true)
    (hc : counts clock = false) (data : LineLevel) (v : Byte) (rest : List Event) :
    sampleBits counts data clock (succeeded (byteWrites v) ++ rest) =
      ((bitsMsbFirst v).map .driven).drop 1 ++
        sampleBits counts (.driven (v.getLsbD 0)) (.driven false) rest := by
  simp [succeeded, byteWrites, bitsMsbFirst, bitWrites, sampleBits, Event.leaves, h0, hc]

@[simp] theorem knownBits_driven (bits : List Bool) : knownBits (bits.map .driven) = some bits := by
  induction bits with
  | nil => rfl
  | cons b bits ih => rw [List.map_cons, knownBits, ih]; rfl

end Sys2Proof.Machine
end

