-- ==== Sys2Proof/Tests/Slice0.lean ====
section
/-! SUPPORT. Tests whose expected results are the vectors of 95_test_vectors.md (named V<n> or E<n> in each comment), a
smoke test of the well-formedness checks, and, for every statement with hypotheses, a concrete state and operands that
meet them (`test_witness_…`). -/

namespace Sys2Proof.Tests

open Sys2Proof Sys2Proof.Machine

/-! ### Helpers -/

/-- The next state of an outcome, if there is one. -/
def nextOf (o : Host.Outcome State Fault Refusal) : Option State :=
  match o with
  | .next s => some s
  | .fault _ => none
  | .refused _ => none

/-- The refusal of an outcome, if it is one. -/
def refusalOf (o : Host.Outcome State Fault Refusal) : Option Refusal :=
  match o with
  | .next _ => none
  | .fault _ => none
  | .refused r => some r

theorem of_nextOf {o : Host.Outcome State Fault Refusal} {t : State} (h : nextOf o = some t) : o = .next t := by
  cases o <;> simp [nextOf] at h
  rw [h]

theorem exists_next {o : Host.Outcome State Fault Refusal} (h : (nextOf o).isSome = true) : ∃ t, o = .next t := by
  obtain ⟨t, ht⟩ := Option.isSome_iff_exists.1 h
  exact ⟨t, of_nextOf ht⟩

/-- A controller of `n` entries with these buffer bytes, after an earlier SHOW. -/
def lit (n : Nat) (mem : Memory) : State :=
  { State.reset with life := .active n, mem := mem, lvlData := .driven true, lvlClock := .driven false }

/-- A state whose next line writes are answered by these answers, then by "succeeds". -/
def answering (s : State) (answers : List Bool) : State := { s with lineOk := { answers := answers, rest := true } }

/-- `p` successes, then a failure. -/
def failAt (p : Nat) : List Bool := List.replicate p true ++ [false]

theorem healthy_grants (p : Nat) : Oracle.healthy.grants p := fun _ _ => rfl

theorem failAt_grants (p : Nat) : Oracle.grants { answers := failAt p, rest := true } p := by
  intro q hq
  simp [Oracle.answerAt, failAt, List.getD_eq_getElem?_getD, List.getElem?_append, hq]

theorem failAt_fails (p : Nat) : Oracle.answerAt { answers := failAt p, rest := true } p = false := by
  simp [Oracle.answerAt, failAt, List.getD_eq_getElem?_getD]

/-- A DATA write and a CLOCK write that succeeded. -/
def dOk (b : Bool) : Event := { line := .data, level := b, ok := true }
def cOk (b : Bool) : Event := { line := .clock, level := b, ok := true }

/-! ### Well-formedness smoke: each check refuses an ill-formed term (R52, R53, R58) -/

theorem test_illFormed_new_above : WellFormed (.new 2147483648) = false := by decide
theorem test_illFormed_new_below : WellFormed (.new (-2147483649)) = false := by decide
theorem test_illFormed_setPixel_above : WellFormed (.setPixel 2147483648 0 0 0 0) = false := by decide
theorem test_illFormed_setPixel_below : WellFormed (.setPixel (-2147483649) 0 0 0 0) = false := by decide
theorem test_wellFormed_bounds :
    WellFormed (.new 2147483647) = true ∧ WellFormed (.setPixel (-2147483648) 0 0 0 0) = true := by decide

/-! ### Decoding: one word per encoded row, written out from R58 and R51 -/

/-- V70. -/
theorem test_decode_new : decodeTableWord 128 0x01000000000000080000000000000000 = some (.new 8) := by decide
/-- V73: the count is a signed field. -/
theorem test_decode_new_negative : decodeTableWord 128 0x01000000FFFFFFFF0000000000000000 = some (.new (-1)) := by decide
/-- V24: red, green, blue in call order. -/
theorem test_decode_setPixel : decodeTableWord 128 0x02123456000000003FE0000000000000 =
    some (.setPixel 0 0x12 0x34 0x56 0x3FE0000000000000) := by decide
/-- V28. -/
theorem test_decode_setPixel_lowest : decodeTableWord 128 0x02000000800000000000000000000000 =
    some (.setPixel (-2147483648) 0 0 0 0) := by decide
/-- V97: unused fields hold junk. -/
theorem test_decode_clear : decodeTableWord 128 0x03123456000000093FE0000000000000 = some .clear := by decide
/-- V93. -/
theorem test_decode_show : decodeTableWord 128 0x04000000000000000000000000000000 = some .showBuffer := by decide
/-- V96's case: every unused bit set. -/
theorem test_decode_show_junk : decodeTableWord 128 0x04FFFFFFFFFFFFFFFFFFFFFFFFFFFFFF = some .showBuffer := by decide
/-- V78. -/
theorem test_decode_dispose : decodeTableWord 128 0x05000000000000000000000000000000 = some .dispose := by decide
/-- V90, V91, V92. -/
theorem test_decode_reserved :
    decodeCommand 0x00000000000000000000000000000000 = .error (.reservedOp 0x00) ∧
    decodeCommand 0x06000000000000000000000000000000 = .error (.reservedOp 0x06) ∧
    decodeCommand 0xFF000000000000000000000000000000 = .error (.reservedOp 0xFF) := ⟨rfl, rfl, rfl⟩
/-- E8: `00 00 00 00`. -/
theorem test_decode_start : decodeTableWord 32 0x00000000 = some .startFrame := by decide
/-- V46's first frame, `EF 56 34 12`: blue, green, red in wire order. -/
theorem test_decode_led : decodeTableWord 32 0xEF563412 = some (.led 15 0x56 0x34 0x12) := by decide
/-- E8: `FF FF FF FF`. -/
theorem test_decode_end : decodeTableWord 32 0xFFFFFFFF = some .endFrame := by decide
/-- R51: the header's top three bits are `111`. -/
theorem test_decode_noFrame : decodeTableWord 32 0x66000000 = none ∧ decodeTableWord 8 0xE6 = none := by decide
/-- R34: a frame's first byte is its most significant. -/
theorem test_decode_bytes : decodeBytes [0xE6, 0x00, 0x00, 0xFF] = .ok (.led 6 0 0 255) := rfl
/-- V71, V20: the assembler's defaults. -/
theorem test_asm_defaults : asmNew none = .new 8 ∧
    encode (asmSetPixel 0 255 0 0 none) = some (.command 0x02FF0000000000003FC999999999999A) := by decide

/-! ### The quantiser -/

/-- The level of an operand as a number. -/
def level (q : Quantiser) (b : Binary64) : Option Nat := (quantise q b).map BitVec.toNat

/-- E5, V1 to V5. -/
theorem test_quantiser_basic :
    [0x3FF0000000000000, 0x0000000000000000, 0xBFF0000000000000, 0x4000000000000000, 0x3FC999999999999A,
      0x3FE0000000000000, 0x3FB999999999999A, 0x3FA47AE147AE147B, 0x3F9EB851EB851EB8].map (level .exact) =
    [some 31, some 0, some 0, some 31, some 6, some 15, some 3, some 1, some 0] := by decide +kernel

/-- V6 to V11, V16 to V19, V57. -/
theorem test_quantiser_edges :
    [0x3FA07C84B5DCC63F, 0x3FA089A027525461, 0x3FEEF765FD8ADABA, 0x3FEEF837B4A2339C, 0x3FEFFFFFFFFFFFFF,
      0x3FA0842108421084, 0x0000000000000001, 0x7FF0000000000000, 0xFFF0000000000000, 0x8000000000000000,
      0x7FF8000000000000].map (level .exact) =
    [some 0, some 1, some 29, some 30, some 30, some 0, some 0, some 31, some 0, some 0, none] := by decide +kernel

/-- V11, V15, V50, V51, V57 under the binary64-product instance. -/
theorem test_quantiser_product64 :
    [0x3FA0842108421084, 0x3FEEF7BDEF7BDEF7, 0x3FD0000000000000, 0x3FE8000000000000, 0x7FF8000000000000].map
      (level .product64) = [some 1, some 29, some 7, some 23, none] := by decide +kernel

/-! ### Instructions, one step each -/

/-- V65. -/
theorem test_lineWrite_fails :
    nextOf (exec (.lineWrite .clock true) (answering (lit 1 []) [false])) =
      some { lit 1 [] with
        w := [{ line := .clock, level := true, ok := false }]
        lvlClock := .unknown
        reply := some (.lineAccessFailure (.write .clock true)) } := by decide

/-- V64. -/
theorem test_sendBit : nextOf (exec (.sendBit true) State.reset) =
    some { State.reset with
      w := [dOk true, cOk true, cOk false]
      lvlData := .driven true
      lvlClock := .driven false } := by
  decide

/-- V12: `0xE6`, most significant bit first. -/
theorem test_sendByte : nextOf (exec (.sendByte 0xE6) State.reset) =
    some { State.reset with
      w := [dOk true, cOk true, cOk false, dOk true, cOk true, cOk false, dOk true, cOk true, cOk false,
            dOk false, cOk true, cOk false, dOk false, cOk true, cOk false, dOk true, cOk true, cOk false,
            dOk true, cOk true, cOk false, dOk false, cOk true, cOk false]
      lvlData := .driven false
      lvlClock := .driven false } := by
  decide

/-- E8: the bytes of each frame, recovered from the trace by R113. -/
theorem test_frames :
    (nextOf (exec .startFrame State.reset)).map (fun t => recoverBytes t.w) = some (some [0x00, 0x00, 0x00, 0x00]) ∧
    (nextOf (exec (.led 15 0x56 0x34 0x12) State.reset)).map (fun t => recoverBytes t.w) =
      some (some [0xEF, 0x56, 0x34, 0x12]) ∧
    (nextOf (exec .endFrame State.reset)).map (fun t => recoverBytes t.w) = some (some [0xFF, 0xFF, 0xFF, 0xFF]) := by
  decide +kernel

/-- V24, then V23's shape at the last entry (V21). -/
theorem test_setPixel_stores :
    nextOf (exec (.setPixel 0 0x12 0x34 0x56 0x3FE0000000000000) (lit 8 [])) =
      some { lit 8 [] with mem := [(0, 15), (1, 0x56), (2, 0x34), (3, 0x12)], reply := some .ok } ∧
    nextOf (exec (.setPixel 7 1 2 3 0x3FF0000000000000) (lit 8 [(28, 6), (31, 255)])) =
      some { lit 8 [] with mem := [(28, 31), (29, 3), (30, 2), (31, 1)], reply := some .ok } := by
  decide +kernel

/-- V25, V26, V29, V30: the index is checked before the NaN. -/
theorem test_setPixel_rejects :
    (nextOf (exec (.setPixel 8 1 2 3 0x3FE0000000000000) (lit 8 []))).map (fun t => (t.mem, t.replyCode)) =
      some ([], some 1) ∧
    (nextOf (exec (.setPixel (-1) 1 2 3 0x3FE0000000000000) (lit 8 []))).map (fun t => (t.mem, t.replyCode)) =
      some ([], some 1) ∧
    (nextOf (exec (.setPixel 8 1 2 3 0x7FF8000000000000) (lit 8 []))).map State.replyCode = some (some 1) ∧
    refusalOf (exec (.setPixel 0 1 2 3 0x7FF8000000000000) (lit 8 [])) = some .nanBrightness := by
  decide +kernel

/-- V31. -/
theorem test_clear : nextOf (exec .clear (lit 8 [(0, 6), (3, 255), (14, 255)])) =
    some { lit 8 [] with reply := some .ok } := by decide

/-- V47: the stream of one entry. -/
theorem test_show : (nextOf (exec .showBuffer (lit 1 [(0, 31), (1, 0xCC), (2, 0xBB), (3, 0xAA)]))).map
      (fun t => (t.w.length, recoverBytes t.w, t.replyCode)) =
    some (288, some [0x00, 0x00, 0x00, 0x00, 0xFF, 0xCC, 0xBB, 0xAA, 0xFF, 0xFF, 0xFF, 0xFF], some 0) := by decide +kernel

/-- V49: write 130 of that SHOW fails. -/
theorem test_show_failure :
    (nextOf (exec .showBuffer (answering (lit 1 [(0, 31), (1, 0xCC), (2, 0xBB), (3, 0xAA)]) (failAt 130)))).map
      (fun t => (t.w.length, t.w.getLast?, t.lvlData, t.lvlClock, t.replyCode)) =
    some (131, some { line := .clock, level := true, ok := false }, .driven false, .unknown, some 2) := by
  decide +kernel

/-- V72, as the first step after power-on. -/
theorem test_new : (nextOf (step (State.reset.withFetchWord 128 0x01000000000000000000000000000000))).map
      (fun t => (t.life, t.w.length, recoverBytes t.w, t.replyCode)) =
    some (.active 0, 192, some [0x00, 0x00, 0x00, 0x00, 0xFF, 0xFF, 0xFF, 0xFF], some 0) := by decide +kernel

/-- V75, V76, V73, V74, V77. -/
theorem test_new_stops :
    nextOf (exec (.new 8) { State.reset with openOk := { answers := [false], rest := true } }) =
      some { State.reset with life := .failed, reply := some (.lineAccessFailure .openLines) } ∧
    (nextOf (exec (.new 8) (answering State.reset [false]))).map (fun t => (t.life, t.w, t.lvlData)) =
      some (.failed, [{ line := .data, level := false, ok := false }], .unknown) ∧
    refusalOf (exec (.new (-1)) State.reset) = some .badLedCount ∧
    refusalOf (exec (.new 9) { State.reset with cfg := { Config.atReset with nMax := 8 } }) = some .badLedCount ∧
    refusalOf (exec (.new 8) (lit 8 [])) = some .alreadyBuiltOrFailed := by decide +kernel

/-- V79: write 5 fails; the release is done all the same. -/
theorem test_dispose_failure : (nextOf (exec .dispose (answering (lit 8 [(0, 6)]) (failAt 5)))).map
      (fun t => (t.w, t.life, t.lvlClock, t.replyCode)) =
    some ([dOk false, cOk true, cOk false, dOk false, cOk true, { line := .clock, level := false, ok := false }],
      .unbuilt, .unknown, some 2) := by decide +kernel

/-- V80, V95, V94: refused outside ACTIVE. -/
theorem test_refused_outside_active :
    refusalOf (exec .dispose State.reset) = some .notActive ∧
    refusalOf (exec .clear { State.reset with life := .failed }) = some .notActive ∧
    refusalOf (step (State.reset.withFetchWord 128 0x02FF0000000000003FC999999999999A)) = some .notActive := by decide

/-- R16: a rising edge counts only after CLOCK at 0, a failed DATA write leaves the bit unknown, and R113 counts every
successful (CLOCK, 1). -/
theorem test_recovery :
    edgeBits (.driven false) [dOk true, cOk true, dOk false, cOk true, cOk false, cOk true] =
      [.driven true, .driven false] ∧
    edgeBits .unknown [dOk true, cOk true] = [] ∧
    edgeBits (.driven false) [{ line := .data, level := true, ok := false }, cOk true] = [.unknown] ∧
    recoverBits [cOk true, dOk true, cOk true, cOk true] = [.unknown, .driven true, .driven true] := by decide

/-! ### Witnesses of the statements' hypotheses -/

theorem test_witness_CommandCodesSelect :
    (0x01000000000000080000000000000000#128).extractLsb' 120 8 = 0x01#8 ∧
    (0x02010203FFFFFFFF3FE0000000000000#128).extractLsb' 120 8 = 0x02#8 ∧
    (0x03123456000000093FE0000000000000#128).extractLsb' 120 8 = 0x03#8 ∧
    (0x04000000000000000000000000000000#128).extractLsb' 120 8 = 0x04#8 ∧
    (0x05000000000000000000000000000000#128).extractLsb' 120 8 = 0x05#8 := by decide

theorem test_witness_ReservedCodesRefused :
    opField 0x00000000000000000000000000000000#128 = 0x00#8 ∧ 6 ≤ (opField 0x06000000000000000000000000000000#128).toNat ∧
    6 ≤ (opField 0xFF000000000000000000000000000000#128).toNat ∧
    (State.reset.withFetchWord 128 0x06000000000000000000000000000000).tx = .idle ∧
    (State.reset.withFetchWord 128 0x06000000000000000000000000000000).frameSlot = none ∧
    (State.reset.withFetchWord 128 0x06000000000000000000000000000000).hostCommands =
      [0x06000000000000000000000000000000#128] := by decide

theorem test_witness_UnusedFieldsIgnored : opField 0x02123456000000003FE0000000000000#128 = 0x02#8 := by decide

theorem test_witness_CommandsRoundTrip :
    WellFormed (.new (-2147483648)) = true ∧ Instr.isCommand (.new (-2147483648)) = true ∧
    WellFormed (.setPixel 2147483647 1 2 3 0x7FF8000000000000) = true ∧
    Instr.isCommand (.setPixel 2147483647 1 2 3 0x7FF8000000000000) = true := by decide

theorem test_witness_FramesRoundTrip :
    framePos .startFrame = some .first ∧ framePos (.led 31 255 255 254) = some .led ∧ framePos .endFrame = some .last ∧
    encode (.led 31 255 255 254) = some (.frame 0xFFFFFFFE#32) ∧ 0xFFFFFFFE#32 ≠ 0xFFFFFFFF#32 := by decide

theorem test_witness_CommandWordsReencode :
    decodeCommand 0x03123456000000093FE0000000000000#128 = .ok .clear := rfl

theorem test_witness_ClampToUnitInterval :
    (-1 : Int) < 0 ∧ (unitsInOne : Int) < 2 * unitsInOne ∧ unitsInOne ≤ unitsInOne ∧ 0 ≤ unitsInOne := by decide +kernel

/-- At 0.5, at the largest operand below 1/31, at 1.0 and at +infinity; and two operands in order. -/
theorem test_witness_QuantiserThresholds :
    clamp (datum 0x3FE0000000000000) = some (unitsInOne / 2) ∧ quantise .exact 0x3FE0000000000000 = some 15 ∧
    15 * unitsInOne ≤ 31 * (unitsInOne / 2) ∧ 31 * (unitsInOne / 2) < 16 * unitsInOne ∧
    datum 0x3FA0842108421084 = .finite (magnitude 0x3FA0842108421084) ∧
    31 * (magnitude 0x3FA0842108421084 : Int) < (unitsInOne : Int) ∧
    datum 0x3FF0000000000000 = .finite (unitsInOne : Int) ∧ datum 0x7FF0000000000000 = .posInf ∧
    clamp (datum 0x3FF0000000000000) = some unitsInOne ∧ unitsInOne / 2 ≤ unitsInOne ∧
    quantise .exact 0x3FF0000000000000 = some 31 := by decide +kernel

theorem test_witness_HeaderByteIsASum :
    (Pixel.brightness5 { brightness5 := 31, blue := 1, green := 2, red := 3 }).toNat ≤ 31 ∧
    (Pixel.brightness5 { brightness5 := 0, blue := 1, green := 2, red := 3 }).toNat ≤ 31 := by decide

theorem test_witness_FlatViewOfEntries :
    0 < (lit 2 [(0, 15)]).count ∧ 1 < (lit 2 [(0, 15)]).count ∧ 4 * (lit 2 [(0, 15)]).count ≤ 8 ∧
    (lit 2 [(0, 15)]).mem.wf = true ∧ 7 < 4 * (lit 2 [(0, 15)]).count := by decide

theorem test_witness_CanonicalBuffersAreEqual :
    Memory.wf [(0, 15), (5, 7)] = true ∧ (Memory.write [(0, 15)] 5 7).wf = true ∧
    ∀ a, Memory.read [(0, 15), (5, 7)] a = (Memory.write [(0, 15)] 5 7).read a := ⟨rfl, rfl, fun _ => rfl⟩

/-- The first and the last entry, and the indices just outside. -/
theorem test_witness_SetPixelReadsBack :
    (lit 8 [(0, 15)]).life = .active 8 ∧ (lit 8 [(0, 15)]).mem.wf = true ∧
    (0 : Int) ≤ 0 ∧ (0 : Int) < (8 : Nat) ∧ (0 : Int) ≤ 7 ∧ (7 : Int) < (8 : Nat) ∧
    clamp (datum 0x3FE0000000000000) = some (unitsInOne / 2) ∧ (lit 8 [(0, 15)]).cfg.quantiser = .exact ∧
    (-1 : Int) < 0 ∧ ((8 : Nat) : Int) ≤ 8 := by decide +kernel

theorem test_witness_SetPixelCheckOrder :
    State.reset.isActive = false ∧ (lit 8 []).life = .active 8 ∧ (lit 0 []).life = .active 0 ∧
    (-1 : Int) < 0 ∧ ((8 : Nat) : Int) ≤ 8 ∧ (0 : Int) ≤ 7 ∧ (7 : Int) < (8 : Nat) ∧ datum 0x7FF8000000000000 = .nan := by
  decide +kernel

theorem test_witness_SetPixelIdempotent :
    (lit 8 [(0, 15)]).mem.wf = true ∧
    exec (.setPixel 0 0x12 0x34 0x56 0x3FE0000000000000) (lit 8 [(0, 15)]) =
      .next { lit 8 [(0, 15), (1, 0x56), (2, 0x34), (3, 0x12)] with reply := some .ok } :=
  ⟨rfl, of_nextOf (by decide +kernel)⟩

/-- A well-kept state whose buffer is not zero. -/
theorem lit_inv : State.Inv (lit 2 [(0, 15), (1, 0x56)]) := by
  refine ⟨rfl, by decide, fun i => ?_, by decide, fun p h => by cases h⟩
  cases i with
  | zero => decide
  | succ i =>
    have h : ((lit 2 [(0, 15), (1, 0x56)]).pixel (i + 1)).brightness5 = 0 := by
      show Memory.read [(0, 15), (1, 0x56)] (4 * (i + 1)) = 0
      rw [Memory.read, if_neg (by omega), Memory.read, if_neg (by omega)]
      rfl
    rw [h]
    decide

theorem test_witness_ClearZeroesTheBuffer :
    State.reset.isActive = false ∧ (lit 2 [(0, 15), (1, 0x56)]).life = .active 2 ∧
    State.Inv (lit 2 [(0, 15), (1, 0x56)]) := ⟨rfl, rfl, lit_inv⟩

theorem test_witness_BufferCommandsDoNoIO :
    exec (.setPixel 9 1 2 3 0x3FE0000000000000) (lit 8 []) = .next { lit 8 [] with reply := some (.indexOutOfRange 9) } ∧
    exec .clear (lit 8 [(0, 15)]) = .next { lit 8 [] with reply := some .ok } :=
  ⟨of_nextOf (by decide +kernel), of_nextOf (by decide)⟩

theorem test_witness_ShowSendsTheWholeStream :
    State.reset.isActive = false ∧ (lit 1 [(0, 31)]).life = .active 1 ∧
    (lit 1 [(0, 31)]).lineOk.grants (24 * (4 * 1 + 8)) := ⟨rfl, rfl, healthy_grants _⟩

/-- The first write, V49's write 130 and the last write. -/
theorem test_witness_ShowStopsAtFirstFailure :
    (lit 1 [(0, 31), (1, 0xCC)]).life = .active 1 ∧
    (streamWrites (encodeStream (lit 1 [(0, 31), (1, 0xCC)]).pixels))[0]? = some (.data, false) ∧
    (streamWrites (encodeStream (lit 1 [(0, 31), (1, 0xCC)]).pixels))[130]? = some (.clock, true) ∧
    (streamWrites (encodeStream (lit 1 [(0, 31), (1, 0xCC)]).pixels))[287]? = some (.clock, false) ∧
    (answering (lit 1 [(0, 31), (1, 0xCC)]) (failAt 130)).lineOk.grants 130 ∧
    (answering (lit 1 [(0, 31), (1, 0xCC)]) (failAt 130)).lineOk.answerAt 130 = false :=
  ⟨rfl, by decide +kernel, by decide +kernel, by decide +kernel, failAt_grants 130, failAt_fails 130⟩

/-- A SHOW that failed at once, after which the line is healthy. -/
def afterFailedShow : State :=
  { lit 1 [(0, 31)] with
    w := [{ line := .data, level := false, ok := false }]
    lvlData := .unknown
    reply := some (.lineAccessFailure (.write .data false)) }

theorem failedShow : exec .showBuffer (answering (lit 1 [(0, 31)]) [false]) = .next afterFailedShow :=
  of_nextOf (by decide +kernel)

theorem test_witness_ShowAgainResendsEverything :
    (answering (lit 1 [(0, 31)]) [false]).life = .active 1 ∧
    exec .showBuffer (answering (lit 1 [(0, 31)]) [false]) = .next afterFailedShow ∧
    afterFailedShow.lineOk.grants (24 * (4 * 1 + 8)) := ⟨rfl, failedShow, healthy_grants _⟩

/-- The first and last position of each part of the stream of one entry. -/
theorem test_witness_StreamPositions :
    (lit 1 [(0, 31), (1, 0xCC)]).count = 1 ∧
    [0, 3, 4, 5, 7, 8, 11].map (fun k => (encodeStream (lit 1 [(0, 31), (1, 0xCC)]).pixels)[k]?) =
      [some 0x00, some 0x00, some 0xFF, some 0xCC, some 0x00, some 0xFF, some 0xFF] := by decide +kernel

theorem test_witness_ZeroBufferIsAllOff : ∀ i, i < (lit 2 []).count → (lit 2 []).pixel i = Pixel.zero := fun _ _ => rfl

theorem test_witness_LineWriteClosedForm :
    191 < 24 * (4 * (lit 0 []).count + 8) ∧ (lit 0 []).life = .active 0 ∧
    ∃ t, exec .showBuffer (lit 0 []) = .next t ∧ t.reply = some .ok := by
  refine ⟨by decide, rfl, ?_⟩
  obtain ⟨h, -⟩ | ⟨-, -, h⟩ | ⟨-, p, _, _, -, -, hf, -⟩ := execShow_cases (lit 0 [])
  · cases h
  · exact ⟨_, h, rfl⟩
  · cases hf

/-- The first position, one that carries to the next byte, and the last. -/
theorem test_witness_SequencerAdvancesByOne :
    TxPos.start.k < 8 ∧ TxPos.next { k := 3, j := 0, ph := 2 } 8 = .pos { k := 4, j := 7, ph := 0 } ∧
    (7 : Nat) < 8 ∧ TxPos.next { k := 7, j := 0, ph := 2 } 8 = .idle ∧ 24 * 7 + 3 * 7 + 2 + 1 = 24 * 8 := by decide

theorem test_witness_BytesRecoveredFromTrace :
    (lit 1 [(0, 31)]).life = .active 1 ∧ (lit 1 [(0, 31)]).lineOk.grants (24 * (4 * 1 + 8)) :=
  ⟨rfl, healthy_grants _⟩

theorem test_witness_OneWriteAtATimeIsTheSameShow : (answering (lit 1 [(0, 31)]) (failAt 130)).life = .active 1 := rfl

theorem test_witness_MicroOperationsComplete :
    Instr.isCommand .startFrame = false ∧ Instr.isCommand (.led 31 0 0 255) = false ∧ Instr.isCommand .endFrame = false ∧
    Instr.isCommand (.sendByte 0xE6) = false ∧ Instr.isCommand (.sendBit true) = false ∧
    Instr.isCommand (.lineWrite .clock true) = false ∧ State.reset.lineOk.grants (microWrites .startFrame).length ∧
    State.reset.lineOk.grants (microWrites (.led 31 0 0 255)).length ∧
    State.reset.lineOk.grants (microWrites .endFrame).length ∧
    State.reset.lineOk.grants (microWrites (.sendByte 0xE6)).length ∧
    State.reset.lineOk.grants (microWrites (.sendBit true)).length ∧
    State.reset.lineOk.grants (microWrites (.lineWrite .clock true)).length :=
  ⟨rfl, rfl, rfl, rfl, rfl, rfl, healthy_grants _, healthy_grants _, healthy_grants _, healthy_grants _,
    healthy_grants _, healthy_grants _⟩

theorem test_witness_MicroOperationsStopAtFailure :
    Instr.isCommand (.sendByte 0x80) = false ∧ (microWrites (.sendByte 0x80))[0]? = some (.data, true) ∧
    (microWrites (.sendByte 0x80))[23]? = some (.clock, false) ∧ (answering State.reset (failAt 23)).lineOk.grants 23 ∧
    (answering State.reset (failAt 23)).lineOk.answerAt 23 = false :=
  ⟨rfl, rfl, rfl, failAt_grants 23, failAt_fails 23⟩

theorem test_witness_LineWriteEffect :
    Line.clock ≠ Line.data ∧ State.reset.lineOk.answerAt 0 = true ∧
    (answering State.reset [false]).lineOk.answerAt 0 = false := by decide

theorem test_witness_SendBitIsThreeWrites :
    State.reset.lineOk.grants 3 ∧ (answering State.reset (failAt 0)).lineOk.answerAt 0 = false ∧
    (answering State.reset (failAt 1)).lineOk.grants 1 ∧ (answering State.reset (failAt 1)).lineOk.answerAt 1 = false ∧
    (answering State.reset (failAt 2)).lineOk.grants 2 ∧ (answering State.reset (failAt 2)).lineOk.answerAt 2 = false :=
  ⟨healthy_grants _, failAt_fails 0, failAt_grants 1, failAt_fails 1, failAt_grants 2, failAt_fails 2⟩

theorem test_witness_BytesAreSentMsbFirst : State.reset.lineOk.grants 24 := healthy_grants _

/-- The smallest and the largest admitted count. -/
theorem test_witness_NewBuildsAndDarkens :
    State.reset.life = .unbuilt ∧ (0 : Int) ≤ 0 ∧ (0 : Int) ≤ (State.reset.cfg.nMax : Int) ∧
    (State.reset.cfg.nMax : Int) ≤ (State.reset.cfg.nMax : Int) ∧ State.reset.openOk.answerAt 0 = true ∧
    State.reset.lineOk.grants (24 * (4 * (0 : Int).toNat + 8)) :=
  ⟨rfl, le_refl _, by decide, le_refl _, rfl, healthy_grants _⟩

theorem test_witness_FailedNewIsFinal :
    State.reset.life = .unbuilt ∧ (0 : Int) ≤ 1 ∧ (1 : Int) ≤ (State.reset.cfg.nMax : Int) ∧
    Oracle.answerAt { answers := [false], rest := true } 0 = false ∧ State.reset.openOk.answerAt 0 = true ∧
    (streamWrites (allOffStream 1))[287]? = some (.clock, false) ∧ (answering State.reset (failAt 287)).lineOk.grants 287 ∧
    (answering State.reset (failAt 287)).lineOk.answerAt 287 = false ∧ Instr.isCommand .dispose = true ∧
    State.life { State.reset with life := .failed } = .failed :=
  ⟨rfl, by decide, by decide, rfl, rfl, by decide +kernel, failAt_grants 287, failAt_fails 287, rfl, rfl⟩

/-- With the release succeeding, and with it failing. -/
theorem test_witness_DisposeDarkensAndReleases :
    (lit 1 [(0, 31)]).life = .active 1 ∧ (lit 1 [(0, 31)]).lineOk.grants (24 * (4 * 1 + 8)) ∧
    (lit 1 [(0, 31)]).releaseOk.answerAt 0 = true ∧ Oracle.answerAt { answers := [false], rest := true } 0 = false :=
  ⟨rfl, healthy_grants _, rfl, rfl⟩

theorem test_witness_DisposeAlwaysReleases :
    (answering (lit 1 [(0, 31)]) (failAt 5)).life = .active 1 ∧
    (streamWrites (allOffStream 1))[5]? = some (.clock, false) ∧
    (answering (lit 1 [(0, 31)]) (failAt 5)).lineOk.grants 5 ∧
    (answering (lit 1 [(0, 31)]) (failAt 5)).lineOk.answerAt 5 = false :=
  ⟨rfl, rfl, failAt_grants 5, failAt_fails 5⟩

/-- After a DISPOSE whose SHOW failed at once. -/
def afterFailedDispose : State :=
  { State.reset with
    w := [{ line := .data, level := false, ok := false }]
    reply := some (.lineAccessFailure (.write .data false)) }

theorem failedDispose : exec .dispose (answering (lit 1 [(0, 31)]) [false]) = .next afterFailedDispose :=
  of_nextOf (by decide +kernel)

theorem test_witness_NewAfterDisposeIsAsAtPowerOn :
    exec .dispose (answering (lit 1 [(0, 31)]) [false]) = .next afterFailedDispose := failedDispose

/-- NEW failing and succeeding, DISPOSE, and a command that stays ACTIVE. -/
theorem test_witness_LifecycleTransitions :
    Instr.isCommand (.new 0) = true ∧ (∃ t, exec (.new 0) (answering State.reset [false]) = .next t) ∧
    (∃ t, exec (.new 0) State.reset = .next t) ∧ Instr.isCommand .dispose = true ∧
    exec .dispose (answering (lit 1 [(0, 31)]) [false]) = .next afterFailedDispose ∧
    Instr.isCommand .clear = true ∧ exec .clear (lit 8 [(0, 15)]) = .next { lit 8 [] with reply := some .ok } :=
  ⟨rfl, exists_next (by decide +kernel), exists_next (by decide +kernel), rfl, failedDispose, rfl, of_nextOf (by decide)⟩

/-- Each reason occurs. -/
theorem test_witness_RefusedExactlyWhen :
    refusalOf (exec .showBuffer State.reset) = some .notActive ∧
    refusalOf (exec (.new 0) (lit 0 [])) = some .alreadyBuiltOrFailed ∧
    refusalOf (exec (.new 65) State.reset) = some .badLedCount ∧
    refusalOf (exec (.setPixel 0 1 2 3 0xFFF0000000000001) (lit 1 [])) = some .nanBrightness := by decide +kernel

theorem test_witness_NoInstructionFaults : Instr.isCommand (.lineWrite .data true) = false := rfl

theorem test_witness_StatusesByCommand :
    exec (.setPixel 9 1 2 3 0x3FE0000000000000) (lit 8 []) = .next { lit 8 [] with reply := some (.indexOutOfRange 9) } ∧
    exec .clear (lit 8 [(0, 15)]) = .next { lit 8 [] with reply := some .ok } ∧
    exec .showBuffer (answering (lit 1 [(0, 31)]) [false]) = .next afterFailedShow ∧
    (∃ t, exec (.new 0) (answering State.reset [false]) = .next t) ∧
    exec .dispose (answering (lit 1 [(0, 31)]) [false]) = .next afterFailedDispose :=
  ⟨of_nextOf (by decide +kernel), of_nextOf (by decide), failedShow, exists_next (by decide +kernel), failedDispose⟩

/-- A step that completes, one that faults and one that is refused. -/
theorem test_witness_StatusIsNeverRead :
    step (State.withFetchWord (lit 8 [(0, 15)]) 128 0x03000000000000000000000000000000) =
      .next { lit 8 [] with reply := some .ok } ∧
    step (State.reset.withFetchWord 32 0x66000000) = .fault (.notAFrame 0x66000000) ∧
    step (State.reset.withFetchWord 128 0) = .refused (.reservedOp 0) := ⟨rfl, rfl, rfl⟩

/-- Each clause: a command, nothing waiting, a frame, a running SHOW, and the two kinds of placed word. -/
theorem test_witness_StepRunsTheDecodedInstruction :
    State.reset.tx = .idle ∧ State.reset.frameSlot = none ∧ State.reset.hostCommands = [] ∧
    (State.reset.withFetchWord 128 0x03123456000000093FE0000000000000).hostCommands =
      [0x03123456000000093FE0000000000000#128] ∧
    decodeCommand 0x03123456000000093FE0000000000000#128 = .ok .clear ∧
    (State.reset.withFetchWord 32 0xE60000FF).frameSlot = some 0xE60000FF#32 ∧
    decodeFrame 0xE60000FF#32 = .ok (.led 6 0 0 255) ∧
    State.tx { lit 1 [] with tx := .pos TxPos.start } = .pos TxPos.start ∧
    decodeTableWord 128 0x03123456000000093FE0000000000000 = some .clear ∧
    decodeTableWord 32 0xE60000FF = some (.led 6 0 0 255) :=
  ⟨rfl, rfl, rfl, rfl, rfl, rfl, rfl, rfl, rfl, rfl⟩

theorem placedClear : step (State.withFetchWord (lit 2 [(0, 15), (1, 0x56)]) 128 0x03000000000000000000000000000000) =
    .next { lit 2 [] with reply := some .ok } := rfl

theorem test_witness_TraceOnlyGrows : step (State.withFetchWord (lit 2 [(0, 15), (1, 0x56)]) 128
    0x03000000000000000000000000000000) = .next { lit 2 [] with reply := some .ok } := placedClear

theorem test_witness_ParametersAreFixed : step (State.withFetchWord (lit 2 [(0, 15), (1, 0x56)]) 128
    0x03000000000000000000000000000000) = .next { lit 2 [] with reply := some .ok } := placedClear

theorem test_witness_EveryStepKeepsTheBlockWell :
    State.Inv (State.withFetchWord (lit 2 [(0, 15), (1, 0x56)]) 128 0x03000000000000000000000000000000) ∧
    step (State.withFetchWord (lit 2 [(0, 15), (1, 0x56)]) 128 0x03000000000000000000000000000000) =
      .next { lit 2 [] with reply := some .ok } :=
  ⟨⟨lit_inv.memCanonical, lit_inv.memInside, lit_inv.brightnessRange, lit_inv.countAdmitted, lit_inv.txRange⟩,
    placedClear⟩

theorem test_witness_HostCommandsEndBetweenCommands :
    State.BetweenCommands (State.withFetchWord (lit 2 [(0, 15), (1, 0x56)]) 128 0x03000000000000000000000000000000) ∧
    step (State.withFetchWord (lit 2 [(0, 15), (1, 0x56)]) 128 0x03000000000000000000000000000000) =
      .next { lit 2 [] with reply := some .ok } :=
  ⟨⟨rfl, rfl, fun h => by cases h⟩, placedClear⟩

/-- CLOCK at 0 after a SHOW, and CLOCK unknown after a SHOW whose first pulse failed. -/
theorem test_witness_EdgesRecoverTheBytes :
    (lit 1 [(0, 31)]).life = .active 1 ∧ (lit 1 [(0, 31)]).lineOk.grants (24 * (4 * 1 + 8)) ∧
    (lit 1 [(0, 31)]).lvlClock = .driven false ∧
    State.lvlClock { lit 1 [(0, 31)] with lvlClock := .unknown } ≠ .driven false :=
  ⟨rfl, healthy_grants _, rfl, by decide⟩

theorem lit_between : State.BetweenCommands (answering (lit 1 [(0, 31)]) [false]) :=
  ⟨rfl, rfl, fun h => by cases h⟩

/-- A run of one DISPOSE whose SHOW fails at once. -/
theorem disposeRun : hostRun [0x05000000000000000000000000000000#128] (answering (lit 1 [(0, 31)]) [false]) =
    .next afterFailedDispose := of_nextOf (by decide +kernel)

theorem disposeRunComplete : RunComplete (answering (lit 1 [(0, 31)]) [false])
    [0x05000000000000000000000000000000#128] afterFailedDispose :=
  ⟨disposeRun, ⟨_, List.mem_singleton.2 rfl, rfl⟩, rfl⟩

/-- A complete run, the run with no command, a run that owes its DISPOSE and one that has faulted. -/
theorem test_witness_HostRunsAreClassified :
    State.BetweenCommands (answering (lit 1 [(0, 31)]) [false]) ∧
    hostRun [0x05000000000000000000000000000000#128] (answering (lit 1 [(0, 31)]) [false]) = .next afterFailedDispose ∧
    RunComplete (answering (lit 1 [(0, 31)]) [false]) [0x05000000000000000000000000000000#128] afterFailedDispose ∧
    State.BetweenCommands State.reset ∧ hostRun [] State.reset = .next State.reset ∧
    (nextOf (hostRun [0x03000000000000000000000000000000#128] (lit 8 [(0, 15)]))).map State.life = some (.active 8) ∧
    (nextOf (hostRun [0x01000000000000080000000000000000#128] (answering State.reset [false]))).map State.life =
      some .failed :=
  ⟨lit_between, disposeRun, disposeRunComplete, ⟨rfl, rfl, fun _ => ⟨rfl, rfl⟩⟩, rfl, by decide +kernel,
    by decide +kernel⟩

/-- With a failed write in the DISPOSE, and a state from which none fails. -/
theorem test_witness_CompleteRunsEndDark :
    State.BetweenCommands (answering (lit 1 [(0, 31)]) [false]) ∧
    RunComplete (answering (lit 1 [(0, 31)]) [false]) [0x05000000000000000000000000000000#128] afterFailedDispose ∧
    State.BetweenCommands (lit 1 [(0, 31)]) ∧ (lit 1 [(0, 31)]).lineOk.grants (24 * (4 * 1 + 8)) ∧
    ∃ t, RunComplete (lit 1 [(0, 31)]) [0x05000000000000000000000000000000#128] t := by
  refine ⟨lit_between, disposeRunComplete, ⟨rfl, rfl, fun h => by cases h⟩, healthy_grants _, ?_⟩
  obtain ⟨h, -⟩ | ⟨-, -, h⟩ | ⟨-, p, _, _, -, -, hf, -⟩ := execDispose_cases (lit 1 [(0, 31)])
  · cases h
  · exact ⟨_, hostRun_single (i := .dispose) rfl rfl rfl h, ⟨_, List.mem_singleton.2 rfl, rfl⟩, rfl⟩
  · cases hf

end Sys2Proof.Tests
end

section
/-! The all-off stream of a zeroed buffer (41_show_transmit.md R106), and what NEW leaves when the environment lets its
open and every write of its SHOW succeed (10_state.md R24). -/

namespace Sys2Proof.Machine

/-! ### The all-off stream -/

theorem ledFrameBytes_zero : ledFrameBytes Pixel.zero = [0xE0, 0x00, 0x00, 0x00] := rfl

@[simp] theorem allOffStream_length (n : Nat) : (allOffStream n).length = 4 * n + 8 := by
  simp only [allOffStream, List.length_append, List.length_flatten, List.map_replicate, List.sum_replicate,
    List.length_cons, List.length_nil, smul_eq_mul]
  omega

theorem State.pixels_eq_replicate_zero {s : State} (h : ∀ i, i < s.count → s.pixel i = Pixel.zero) :
    s.pixels = List.replicate s.count Pixel.zero := by
  refine List.eq_replicate_iff.2 ⟨State.pixels_length s, fun p hp => ?_⟩
  obtain ⟨i, hi, rfl⟩ := List.mem_map.1 hp
  exact h i (List.mem_range.1 hi)

theorem encodeStream_replicate_zero (n : Nat) : encodeStream (List.replicate n Pixel.zero) = allOffStream n := by
  rw [encodeStream, List.flatMap_replicate, ledFrameBytes_zero]
  rfl

/-- A buffer of zero entries is sent as the all-off stream (R106). -/
theorem encodeStream_pixels_of_zero {s : State} (h : ∀ i, i < s.count → s.pixel i = Pixel.zero) :
    encodeStream s.pixels = allOffStream s.count := by
  rw [State.pixels_eq_replicate_zero h, encodeStream_replicate_zero]

/-! ### NEW -/

@[simp] theorem State.openedWith_count (s : State) (n : Nat) : (s.openedWith n).count = n := rfl

@[simp] theorem State.openedWith_pixel (s : State) (n i : Nat) : (s.openedWith n).pixel i = Pixel.zero := rfl

theorem State.openedWith_stream (s : State) (n : Nat) : encodeStream (s.openedWith n).pixels = allOffStream n :=
  encodeStream_pixels_of_zero fun i _ => s.openedWith_pixel n i

/-- Where the environment grants as many writes as a SHOW makes, no write of its plan fails. -/
theorem State.showPlan_answers_true {s : State} {o : Oracle} {p : Nat} {x : Line × Bool}
    (hg : o.grants (showWrites s.count)) (hx : s.showPlan[p]? = some x) : o.answerAt p = true := by
  obtain ⟨hp, -⟩ := List.getElem?_eq_some_iff.1 hx
  exact hg p (by rwa [State.showPlan_length] at hp)

/-- NEW when the count is admitted and the open and every write succeed (R130). -/
theorem execNew_success {s : State} {ledCount : Int} (hl : s.life = .unbuilt) (h0 : 0 ≤ ledCount)
    (hmax : ledCount ≤ (s.cfg.nMax : Int)) (ho : s.openOk.answerAt 0 = true)
    (hg : s.lineOk.grants (showWrites ledCount.toNat)) :
    execNew ledCount s =
      .next (((s.openedWith ledCount.toNat).showed (allOffStream ledCount.toNat)).returning .ok) := by
  obtain ⟨hne, -⟩ | ⟨-, hbad, -⟩ | ⟨-, -, -, hclosed, -⟩ | ⟨-, -, -, -, hshow⟩ := execNew_cases s ledCount
  · exact absurd hl hne
  · omega
  · simp [ho] at hclosed
  · obtain ⟨-, hnew⟩ | ⟨p, line, level, hx, -, hf, -⟩ := hshow
    · rw [hnew, State.openedWith_stream]
    · have ht : s.lineOk.answerAt p = true :=
        State.showPlan_answers_true (s := s.openedWith ledCount.toNat) hg hx
      simp [hf] at ht

/-- Settles O36: NEW answers the state its SHOW of the zeroed buffer leaves, and that stream is the all-off one. -/
theorem newBuildsAndDarkens : Obligations.NewBuildsAndDarkens := by
  intro s ledCount hl h0 hmax ho hg
  refine ⟨_, execNew_success hl h0 hmax ho hg, ?_, fun i => s.openedWith_pixel ledCount.toNat i⟩
  simp only [State.showed, allOffStream_length, State.openedWith, State.returning]

end Sys2Proof.Machine
end

section
/-! The clamp of the brightness operand, one equation per case (30_encoding.md R55), and the header byte of an LED frame
(30_encoding.md R57). -/

namespace Sys2Proof.Machine

/-! ### The clamp -/

@[simp] theorem clamp_negInf : clamp .negInf = some 0 := rfl

@[simp] theorem clamp_posInf : clamp .posInf = some unitsInOne := rfl

theorem clamp_finite_of_neg {x : Int} (h : x < 0) : clamp (.finite x) = some 0 := by
  rw [clamp, if_pos h]

theorem clamp_finite_of_gt_one {x : Int} (h : (unitsInOne : Int) < x) : clamp (.finite x) = some unitsInOne := by
  rw [clamp, if_neg (by omega), if_pos h]

theorem clamp_finite_of_le_one {x : Nat} (h : x ≤ unitsInOne) : clamp (.finite (x : Int)) = some x := by
  rw [clamp, if_neg (by omega), if_neg (by omega), Int.toNat_natCast]

/-! ### The operands R55 names -/

theorem datum_zero : datum 0x0000000000000000#64 = .finite 0 := by decide

theorem datum_negZero : datum 0x8000000000000000#64 = .finite 0 := by decide

theorem datum_negInf : datum 0xFFF0000000000000#64 = .negInf := by decide

theorem datum_posInf : datum 0x7FF0000000000000#64 = .posInf := by decide

theorem datum_one : datum 0x3FF0000000000000#64 = .finite (unitsInOne : Int) := by decide +kernel

theorem datum_negOne : datum 0xBFF0000000000000#64 = .finite (-(unitsInOne : Int)) := by decide +kernel

theorem datum_two : datum 0x4000000000000000#64 = .finite (2 * (unitsInOne : Int)) := by decide +kernel

/-- Settles O9: the three cases of the clamp, then each operand R55 names by the case its value falls in. -/
theorem clampToUnitInterval : Obligations.ClampToUnitInterval := by
  have hpos := unitsInOne_pos
  have hzero : clamp (.finite 0) = some 0 := clamp_finite_of_le_one (Nat.zero_le _)
  refine ⟨clamp_negInf, clamp_posInf, fun _ => clamp_finite_of_neg, fun _ => clamp_finite_of_gt_one,
    fun _ => clamp_finite_of_le_one, ?negZero, datum_negInf, datum_posInf, datum_one, ?negOne, ?two⟩
  case negZero => rw [datum_negZero, hzero]
  case negOne => rw [datum_negOne, datum_zero, hzero, clamp_finite_of_neg (by omega)]
  case two => rw [datum_two, datum_one, clamp_finite_of_gt_one (by omega), clamp_finite_of_le_one (le_refl _)]

/-! ### The header byte -/

/-- The three header bits and a brightness within 0..31 do not overlap, so their OR is a sum that does not carry (R57). -/
theorem ledHeader_or_toNat {v : Byte} (h : v.toNat ≤ 31) : (ledHeader ||| v).toNat = 0xE0 + v.toNat := by
  rw [BitVec.toNat_or]
  exact (Nat.two_pow_add_eq_or_of_lt (i := 5) (by omega) 7).symm

/-- Settles O13: bits and sum are read off the header's value `0xE0 + brightness5`. -/
theorem headerByteIsASum : Obligations.HeaderByteIsASum := by
  intro p hp
  have hval := ledHeader_or_toNat hp
  refine ⟨ledHeader ||| p.brightness5, rfl, rfl, ?sum, ?least, ?top, ?low⟩
  case sum =>
    apply BitVec.eq_of_toNat_eq
    rw [hval, BitVec.toNat_add]
    exact (Nat.mod_eq_of_lt (by omega : 0xE0 + p.brightness5.toNat < 2 ^ 8)).symm
  case least => omega
  case top =>
    apply BitVec.eq_of_toNat_eq
    rw [BitVec.extractLsb'_toNat, hval, Nat.shiftRight_eq_div_pow, BitVec.toNat_ofNat]
    omega
  case low =>
    rw [BitVec.extractLsb'_toNat, hval, Nat.shiftRight_zero]
    omega

end Sys2Proof.Machine
end

section
/-! The buffer commands (40_buffer_ops.md R80 to R83): what SET_PIXEL answers for an index inside and outside the
buffer, and what CLEAR leaves. -/

namespace Sys2Proof.Machine

/-! ### SET_PIXEL -/

/-- An operand with a clamped value has a brightness level, and the level's byte holds it whole (R56). -/
theorem exists_quantise_of_clamp {b : Binary64} {x : Nat} (q : Quantiser) (h : clamp (datum b) = some x) :
    ∃ level, quantise q b = some level ∧ level.toNat = quantiseUnits q x := by
  have hq : quantise q b = some (BitVec.ofNat 8 (quantiseUnits q x)) := by rw [quantise, h, Option.map_some]
  obtain ⟨y, hy, hval, -⟩ := quantise_eq_some hq
  obtain rfl : x = y := Option.some.inj (h.symm.trans hy)
  exact ⟨_, hq, hval⟩

/-- The bytes outside an entry are as before it was written. -/
theorem Memory.read_setPixel_outside {m : Memory} (hm : m.wf = true) {i a : Nat} (p : Pixel)
    (ha : a < 4 * i ∨ 4 * i + 4 ≤ a) : (m.setPixel i p).read a = m.read a := by
  rw [Memory.read_setPixel hm, if_neg (by omega), if_neg (by omega), if_neg (by omega), if_neg (by omega)]

/-- SET_PIXEL of an entry that exists, with a brightness that has a level (R80). -/
theorem execSetPixel_stores {s : State} {n : Nat} {index : Int} {brightness : Binary64} {level : Byte} (r g b : Byte)
    (hl : s.life = .active n) (h0 : 0 ≤ index) (hn : index < (n : Int))
    (hq : quantise s.cfg.quantiser brightness = some level) :
    execSetPixel index r g b brightness s = .next ((s.setMem (s.mem.setPixel index.toNat
      { brightness5 := level, blue := b, green := g, red := r })).returning .ok) := by
  obtain ⟨hna, -⟩ | ⟨m, hm, hbad, -⟩ | ⟨-, -, -, -, hnan, -⟩ | ⟨-, level', -, -, -, hq', hexec⟩ :=
    execSetPixel_cases s index r g b brightness
  · simp [State.isActive_of_life hl] at hna
  · obtain rfl : n = m := Life.active.inj (hl.symm.trans hm)
    omega
  · simp [quantise_eq_none.2 hnan] at hq
  · obtain rfl : level = level' := Option.some.inj (hq.symm.trans hq')
    exact hexec

/-- SET_PIXEL with an index outside the buffer (R153). -/
theorem execSetPixel_badIndex {s : State} {n : Nat} {index : Int} (r g b : Byte) (brightness : Binary64)
    (hl : s.life = .active n) (hbad : index < 0 ∨ (n : Int) ≤ index) :
    execSetPixel index r g b brightness s = .next (s.returning (.indexOutOfRange index)) := by
  obtain ⟨hna, -⟩ | ⟨-, -, -, hexec⟩ | ⟨m, hm, h0, hn, -⟩ | ⟨m, -, hm, h0, hn, -⟩ :=
    execSetPixel_cases s index r g b brightness
  · simp [State.isActive_of_life hl] at hna
  · exact hexec
  all_goals
    obtain rfl : n = m := Life.active.inj (hl.symm.trans hm)
    omega

/-- Settles O16: inside the buffer the one entry reads back and the others are kept; outside it only the status
changes. -/
theorem setPixelReadsBack : Obligations.SetPixelReadsBack := by
  intro s n index r g b brightness hl hwf
  refine ⟨fun x h0 hn hx => ?inside, execSetPixel_badIndex r g b brightness hl⟩
  case inside =>
    obtain ⟨level, hq, hval⟩ := exists_quantise_of_clamp s.cfg.quantiser hx
    refine ⟨_, level, execSetPixel_stores r g b hl h0 hn hq, ?entry, hval, ?exact, rfl, ?bytes, ?others⟩
    case entry => exact (Memory.pixel_setPixel hwf _ _ _).trans (if_pos rfl)
    case exact =>
      intro hexact
      rw [hval, hexact, quantiseUnits]
    case bytes => exact fun a ha => Memory.read_setPixel_outside hwf _ ha
    case others => exact fun j hj => (Memory.pixel_setPixel hwf _ _ _).trans (if_neg hj)

/-! ### CLEAR -/

theorem Memory.read_zeroBelow_of_lt (m : Memory) {size a : Nat} (h : a < size) : (m.zeroBelow size).read a = 0 := by
  rw [Memory.read_zeroBelow, if_pos h, Memory.unlisted]

theorem Memory.read_zeroBelow_of_le (m : Memory) {size a : Nat} (h : size ≤ a) :
    (m.zeroBelow size).read a = m.read a := by
  rw [Memory.read_zeroBelow, if_neg (by omega)]

theorem Memory.pixel_zeroBelow (m : Memory) {n i : Nat} (h : i < n) : (m.zeroBelow (4 * n)).pixel i = Pixel.zero := by
  rw [Memory.pixel, Memory.read_zeroBelow_of_lt m (by omega), Memory.read_zeroBelow_of_lt m (by omega),
    Memory.read_zeroBelow_of_lt m (by omega), Memory.read_zeroBelow_of_lt m (by omega), Pixel.zero]

@[simp] theorem Memory.zeroBelow_zeroBelow (m : Memory) (size : Nat) :
    (m.zeroBelow size).zeroBelow size = m.zeroBelow size := by
  simp only [Memory.zeroBelow, List.filter_filter, Bool.and_self]

theorem execClear_of_active {s : State} {n : Nat} (hl : s.life = .active n) :
    execClear s = .next (s.zeroBuffer.returning .ok) := by
  obtain ⟨hna, -⟩ | ⟨-, hexec⟩ := execClear_cases s
  · simp [State.isActive_of_life hl] at hna
  · exact hexec

theorem execClear_of_not_active {s : State} (h : s.isActive = false) : execClear s = .refused .notActive := by
  obtain ⟨-, hexec⟩ | ⟨ha, -⟩ := execClear_cases s
  · exact hexec
  · simp [h] at ha

/-- A second CLEAR finds the state the first one left. -/
theorem State.zeroBuffer_returning_ok_again (s : State) :
    ((s.zeroBuffer.returning .ok).zeroBuffer).returning .ok = s.zeroBuffer.returning .ok :=
  congrArg (fun m => (s.setMem m).returning .ok) (s.mem.zeroBelow_zeroBelow (4 * s.count))

/-- Settles O19: everything is read off the one buffer CLEAR leaves, the old one zeroed below `4 * n`. -/
theorem clearZeroesTheBuffer : Obligations.ClearZeroesTheBuffer := by
  intro s
  refine ⟨execClear_of_not_active, fun n hl => ?_⟩
  have hcount : s.count = n := State.count_of_active hl
  have hzero : ∀ i, i < n → (s.zeroBuffer.returning .ok).pixel i = Pixel.zero := fun i hi => by
    rw [State.pixel, State.returning_mem, State.zeroBuffer_mem, hcount]
    exact Memory.pixel_zeroBelow s.mem hi
  refine ⟨s.zeroBuffer.returning .ok, execClear_of_active hl, rfl, hzero, ?below, ?above, ?emptied, ?stream, ?again⟩
  case below => exact fun a ha => Memory.read_zeroBelow_of_lt s.mem (by omega)
  case above => exact fun a ha => Memory.read_zeroBelow_of_le s.mem (by omega)
  case emptied => exact fun hinv => Memory.zeroBelow_of_inside hinv.memInside
  case stream =>
    have hcleared : (s.zeroBuffer.returning .ok).count = n := hcount
    rw [encodeStream_pixels_of_zero (by rwa [hcleared]), hcleared]
  case again =>
    exact (execClear_of_active (s := s.zeroBuffer.returning .ok) hl).trans
      (congrArg Host.Outcome.next s.zeroBuffer_returning_ok_again)

end Sys2Proof.Machine
end

section
/-! Length and framing of the stream (41_show_transmit.md R102): where the start frame ends and the end frame begins. -/

namespace Sys2Proof.Machine

theorem encodeStream_take_startFrame (buffer : List Pixel) : (encodeStream buffer).take 4 = startFrameBytes := by
  rw [encodeStream, List.append_assoc]
  exact List.take_left' rfl

/-- The end frame is the last four bytes, so it begins four bytes before the stream's length. -/
theorem encodeStream_drop_endFrame (buffer : List Pixel) :
    (encodeStream buffer).drop (4 + 4 * buffer.length) = endFrameBytes := by
  have htotal := encodeStream_length buffer
  rw [encodeStream, List.length_append] at htotal
  exact List.drop_left' (Nat.add_right_cancel htotal)

/-- Settles O24: the length of the stream, and its start frame and end frame cut off at either end. -/
theorem streamLengthAndFraming : Obligations.StreamLengthAndFraming := fun buffer =>
  ⟨encodeStream_length buffer, encodeStream_take_startFrame buffer, encodeStream_drop_endFrame buffer⟩

end Sys2Proof.Machine
end

section
/-! The command word and the wire frames, decoded and encoded (30_encoding.md R50 to R63): one equation of the decoder
per `op` and per frame, and the round trips assembled from them. -/

namespace Sys2Proof

/-! ### The decoder of command words, by `op` (R60, R61) -/

theorem decodeCommand_new {w : CommandWord} (h : opField w = 0x01#8) : decodeCommand w = .ok (.new (signedN w)) :=
  if_pos h

theorem decodeCommand_setPixel {w : CommandWord} (h : opField w = 0x02#8) :
    decodeCommand w =
      .ok (.setPixel (signedN w) (redField w) (greenField w) (blueField w) (brightnessField w)) := by
  simp [decodeCommand, h]

theorem decodeCommand_clear {w : CommandWord} (h : opField w = 0x03#8) : decodeCommand w = .ok .clear := by
  simp [decodeCommand, h]

theorem decodeCommand_showBuffer {w : CommandWord} (h : opField w = 0x04#8) : decodeCommand w = .ok .showBuffer := by
  simp [decodeCommand, h]

theorem decodeCommand_dispose {w : CommandWord} (h : opField w = 0x05#8) : decodeCommand w = .ok .dispose := by
  simp [decodeCommand, h]

theorem decodeCommand_reserved {w : CommandWord} (h : opField w = 0x00#8 ∨ 6 ≤ (opField w).toNat) :
    decodeCommand w = .error (.reservedOp (opField w)) := by
  have hne : ∀ c : Byte, 1 ≤ c.toNat → c.toNat ≤ 5 → opField w ≠ c := by
    rintro c h1 h5 rfl
    obtain h | h := h
    · simp [h] at h1
    · omega
  rw [decodeCommand, if_neg (hne _ (by decide) (by decide)), if_neg (hne _ (by decide) (by decide)),
    if_neg (hne _ (by decide) (by decide)), if_neg (hne _ (by decide) (by decide)),
    if_neg (hne _ (by decide) (by decide))]

/-- An `op` is one of the five commands' or reserved (R60, R61). -/
theorem op_cases (op : Byte) :
    op = 0x01#8 ∨ op = 0x02#8 ∨ op = 0x03#8 ∨ op = 0x04#8 ∨ op = 0x05#8 ∨ (op = 0x00#8 ∨ 6 ≤ op.toNat) := by
  simp only [← BitVec.toNat_inj, BitVec.toNat_ofNat]
  omega

/-- Settles O5: the word of each command decodes by its `op`, and every field the decoder reads is read back whole. -/
theorem commandsRoundTrip : Obligations.CommandsRoundTrip := by
  intro i hwf hc
  cases i with
  | new ledCount =>
    refine ⟨_, rfl, (decodeCommand_new (opField_commandWord ..)).trans ?_⟩
    rw [signedN, nField_commandWord, toInt_ofInt_of_fits hwf]
  | setPixel index red green blue brightness =>
    refine ⟨_, rfl, (decodeCommand_setPixel (opField_commandWord ..)).trans ?_⟩
    rw [signedN, nField_commandWord, toInt_ofInt_of_fits hwf, redField_commandWord,
      greenField_commandWord, blueField_commandWord, brightnessField_commandWord]
  | clear => exact ⟨_, rfl, decodeCommand_clear (opField_commandWord ..)⟩
  | showBuffer => exact ⟨_, rfl, decodeCommand_showBuffer (opField_commandWord ..)⟩
  | dispose => exact ⟨_, rfl, decodeCommand_dispose (opField_commandWord ..)⟩
  | startFrame | led | endFrame | sendByte | sendBit | lineWrite => cases hc

/-- Settles O2: one equation of the decoder per `op`. -/
theorem commandCodesSelect : Obligations.CommandCodesSelect := fun _ =>
  ⟨decodeCommand_new, decodeCommand_setPixel, decodeCommand_clear, decodeCommand_showBuffer, decodeCommand_dispose⟩

/-- Settles O3: the decoder rejects the word, so the step that fetches it has nothing to run. -/
theorem reservedCodesRefused : Obligations.ReservedCodesRefused := by
  intro w hop
  have hd := decodeCommand_reserved hop
  refine ⟨hd, fun s rest htx hf hw => ?_⟩
  simp only [Machine.step, Machine.fetch, htx, hf, hw, Machine.fetchCommand, hd]

/-! ### Unused fields (R58, R62) -/

theorem zeroUnused_new {w : CommandWord} (h : opField w = 0x01#8) :
    zeroUnused w = commandWord 0x01 0 0 0 (nField w) 0 := if_pos h

theorem zeroUnused_setPixel {w : CommandWord} (h : opField w = 0x02#8) : zeroUnused w = w := by
  simp [zeroUnused, h]

theorem zeroUnused_other {w : CommandWord} (h1 : opField w ≠ 0x01#8) (h2 : opField w ≠ 0x02#8) :
    zeroUnused w = commandWord (opField w) 0 0 0 0 0 := by
  rw [zeroUnused, if_neg h1, if_neg h2]

@[simp] theorem opField_zeroUnused (w : CommandWord) : opField (zeroUnused w) = opField w := by
  by_cases h1 : opField w = 0x01#8
  · exact (congrArg opField (zeroUnused_new h1)).trans ((opField_commandWord ..).trans h1.symm)
  by_cases h2 : opField w = 0x02#8
  · rw [zeroUnused_setPixel h2]
  · rw [zeroUnused_other h1 h2, opField_commandWord]

theorem decodeCommand_zeroUnused (w : CommandWord) : decodeCommand (zeroUnused w) = decodeCommand w := by
  have hop := opField_zeroUnused w
  obtain h | h | h | h | h | h := op_cases (opField w)
  · rw [decodeCommand_new (hop.trans h), decodeCommand_new h, signedN, zeroUnused_new h, nField_commandWord, signedN]
  · rw [zeroUnused_setPixel h]
  · rw [decodeCommand_clear (hop.trans h), decodeCommand_clear h]
  · rw [decodeCommand_showBuffer (hop.trans h), decodeCommand_showBuffer h]
  · rw [decodeCommand_dispose (hop.trans h), decodeCommand_dispose h]
  · rw [decodeCommand_reserved (by rwa [hop]), decodeCommand_reserved h, hop]

/-- Settles O4: zeroing the unused fields does not change what the decoder reads. -/
theorem unusedFieldsIgnored : Obligations.UnusedFieldsIgnored :=
  ⟨fun w => (decodeCommand_zeroUnused w).symm, fun _ h => ⟨_, _, _, _, decodeCommand_setPixel h⟩,
    fun _ _ _ _ => rfl, rfl⟩

/-- Settles O7: by `op`, the fields the encoder writes are the ones the decoder read. -/
theorem commandWordsReencode : Obligations.CommandWordsReencode := by
  intro w i hi
  have hother : ∀ {op : Byte}, opField w = op → op ≠ 0x01#8 → op ≠ 0x02#8 →
      zeroUnused w = commandWord op 0 0 0 0 0 := by
    rintro op rfl h1 h2
    exact zeroUnused_other h1 h2
  obtain h | h | h | h | h | h := op_cases (opField w)
  · obtain rfl := Except.ok.inj ((decodeCommand_new h).symm.trans hi)
    refine ⟨fits_toInt _, rfl, ?_⟩
    rw [zeroUnused_new h, encode, signedN, BitVec.ofInt_toInt]
  · obtain rfl := Except.ok.inj ((decodeCommand_setPixel h).symm.trans hi)
    refine ⟨fits_toInt _, rfl, ?_⟩
    have hw := commandWord_of_fields w
    rw [h] at hw
    rw [zeroUnused_setPixel h, encode, signedN, BitVec.ofInt_toInt]
    exact congrArg (some ∘ CodeWord.command) hw
  · obtain rfl := Except.ok.inj ((decodeCommand_clear h).symm.trans hi)
    exact ⟨rfl, rfl, by rw [hother h (by decide) (by decide)]; rfl⟩
  · obtain rfl := Except.ok.inj ((decodeCommand_showBuffer h).symm.trans hi)
    exact ⟨rfl, rfl, by rw [hother h (by decide) (by decide)]; rfl⟩
  · obtain rfl := Except.ok.inj ((decodeCommand_dispose h).symm.trans hi)
    exact ⟨rfl, rfl, by rw [hother h (by decide) (by decide)]; rfl⟩
  · rw [decodeCommand_reserved h] at hi
    cases hi

/-! ### Wire frames (R51, R63) -/

theorem decodeLed_ledWord (b5 : BitVec 5) (blue green red : Byte) :
    decodeLed (ledWord b5 blue green red) = .ok (.led b5 blue green red) := by
  obtain ⟨hheader, hb5, hblue, hgreen, hred⟩ := ledWord_fields b5 blue green red
  rw [decodeLed, if_pos hheader, hb5, hblue, hgreen, hred]

/-- The header bits of an LED frame are not those of the start frame. -/
theorem ledWord_ne_start (b5 : BitVec 5) (blue green red : Byte) : ledWord b5 blue green red ≠ 0x00000000#32 := by
  intro h
  have hheader := (ledWord_fields b5 blue green red).1
  rw [h] at hheader
  exact absurd hheader (by decide)

theorem decodeFrame_of_not_fixed {w : FrameWord} (h0 : w ≠ 0x00000000#32) (h1 : w ≠ 0xFFFFFFFF#32) :
    decodeFrame w = decodeLed w := by
  rw [decodeFrame, if_neg h0, if_neg h1]

/-- Settles O6: the two fixed frames by computing, the LED frame by its fields. -/
theorem framesRoundTrip : Obligations.FramesRoundTrip := by
  intro i p hp
  cases i with
  | startFrame =>
    obtain rfl := Option.some.inj hp
    exact ⟨_, rfl, rfl, fun _ => rfl⟩
  | endFrame =>
    obtain rfl := Option.some.inj hp
    exact ⟨_, rfl, rfl, fun _ => rfl⟩
  | led b5 blue green red =>
    obtain rfl := Option.some.inj hp
    refine ⟨_, rfl, decodeLed_ledWord b5 blue green red, fun hw => ?_⟩
    rw [decodeFrame_of_not_fixed (ledWord_ne_start b5 blue green red) (hw.resolve_right (by decide)), decodeLed_ledWord]
  | new | setPixel | clear | showBuffer | dispose | sendByte | sendBit | lineWrite => cases hp

/-- Settles O1: each word computed by the decoder. -/
theorem knownWordsDecode : Obligations.KnownWordsDecode :=
  ⟨rfl, rfl, rfl, rfl, rfl, rfl, rfl, rfl, rfl, rfl⟩

/-- Settles O8: the two frames are the run of the same line writes, and the header tells an LED frame from START. -/
theorem fullWhiteFrameActsAsEnd : Obligations.FullWhiteFrameActsAsEnd := by
  refine ⟨by decide, fun s => ?_, fun b5 blue green red h => ?_⟩
  · have hwrites : Machine.microWrites (.led 31 255 255 255) = Machine.microWrites .endFrame := by decide
    rw [Machine.exec_eq_drive rfl, Machine.exec_eq_drive rfl, hwrites]
  · exact ledWord_ne_start b5 blue green red (CodeWord.frame.inj (Option.some.inj h))

end Sys2Proof
end

section
/-! The flat view of the buffer and its canonical form (20_memory.md R30), and the checks, the idempotence and the frame
of the buffer commands (40_buffer_ops.md R80 to R82). -/

namespace Sys2Proof.Machine

/-! ### The flat view -/

theorem State.memRead_inside {s : State} {a : Nat} (h : a < 4 * s.count) : s.memRead a = .ok (s.mem.read a) := if_pos h

theorem State.memRead_outside {s : State} {a : Nat} (h : 4 * s.count ≤ a) :
    s.memRead a = .error (.noSuchOffset a) := if_neg (by omega)

theorem State.memWrite_inside {s : State} {a : Nat} (h : a < 4 * s.count) (v : Byte) :
    s.memWrite a v = .ok (s.setMem (s.mem.write a v)) := if_pos h

theorem State.memWrite_outside {s : State} {a : Nat} (h : 4 * s.count ≤ a) (v : Byte) :
    s.memWrite a v = .error (.noSuchOffset a) := if_neg (by omega)

theorem State.memRead_setMem_of_read {s : State} {m : Memory} {a : Nat} (h : m.read a = s.mem.read a) :
    (s.setMem m).memRead a = s.memRead a := by
  simp only [State.memRead, State.count_setMem, State.setMem_mem, h]

/-- Settles O14: an entry's fields are the bytes at its four offsets, and a byte written reads back alone. -/
theorem flatViewOfEntries : Obligations.FlatViewOfEntries := by
  intro s
  refine ⟨fun i hi => ?entries, fun a v ha => ⟨State.memRead_outside ha, State.memWrite_outside ha v⟩,
    fun a v hwf ha => ?bytes⟩
  case entries =>
    exact ⟨State.memRead_inside (by omega), State.memRead_inside (by omega), State.memRead_inside (by omega),
      State.memRead_inside (by omega)⟩
  case bytes =>
    refine ⟨_, State.memWrite_inside ha v, rfl, Memory.wf_write hwf a v, ?_, fun a' ha' => ?_⟩
    · refine (State.memRead_inside (s := s.setMem (s.mem.write a v)) ha).trans ?_
      rw [State.setMem_mem, Memory.read_write hwf, if_pos rfl]
    · exact State.memRead_setMem_of_read ((Memory.read_write hwf a a' v).trans (if_neg ha'))

/-! ### The canonical form -/

theorem Memory.wfFrom_cons {lo b : Nat} {x : Byte} {rest : Memory} :
    Memory.wfFrom lo ((b, x) :: rest) = true ↔ lo ≤ b ∧ x ≠ Memory.unlisted ∧ Memory.wfFrom (b + 1) rest = true := by
  simp only [Memory.wfFrom, Bool.and_eq_true, decide_eq_true_eq, and_assoc]

theorem Memory.read_head (b : Nat) (x : Byte) (rest : Memory) : Memory.read ((b, x) :: rest) b = x := if_pos rfl

theorem Memory.read_tail {a b : Nat} (h : a ≠ b) (x : Byte) (rest : Memory) :
    Memory.read ((b, x) :: rest) a = Memory.read rest a := if_neg h

/-- A buffer whose first listed byte reads as unlisted in another canonical one does not read like it. -/
theorem Memory.head_lt_absurd {b c : Nat} {x : Byte} {rest m : Memory} (hx : x ≠ Memory.unlisted)
    (hm : Memory.wfFrom c m = true) (hbc : b < c) (h : Memory.read ((b, x) :: rest) b = m.read b) : False :=
  hx ((Memory.read_head b x rest).symm.trans (h.trans (Memory.read_of_lt hm hbc)))

/-- A canonical buffer is determined by what its offsets read as. -/
theorem Memory.eq_of_read {m m' : Memory} {lo : Nat} (hm : Memory.wfFrom lo m = true)
    (hm' : Memory.wfFrom lo m' = true) (h : ∀ a, m.read a = m'.read a) : m = m' := by
  induction m generalizing lo m' with
  | nil =>
    cases m' with
    | nil => rfl
    | cons c' rest' =>
      obtain ⟨b', x'⟩ := c'
      exact (Memory.head_lt_absurd (Memory.wfFrom_cons.1 hm').2.1 (m := []) (c := b' + 1) rfl (by omega)
        (h b').symm).elim
  | cons c rest ih =>
    obtain ⟨b, x⟩ := c
    obtain ⟨hlo, hx, hrest⟩ := Memory.wfFrom_cons.1 hm
    cases m' with
    | nil => exact (Memory.head_lt_absurd hx (m := []) (c := b + 1) rfl (by omega) (h b)).elim
    | cons c' rest' =>
      obtain ⟨b', x'⟩ := c'
      obtain ⟨hlo', hx', hrest'⟩ := Memory.wfFrom_cons.1 hm'
      obtain hlt | rfl | hgt := Nat.lt_trichotomy b b'
      · exact (Memory.head_lt_absurd hx (Memory.wfFrom_cons.2 ⟨Nat.le_refl b', hx', hrest'⟩) hlt (h b)).elim
      · have hhead : x = x' := by rw [← Memory.read_head b x rest, h b, Memory.read_head]
        have htail : ∀ a, Memory.read rest a = Memory.read rest' a := by
          intro a
          obtain hlt | hge := Nat.lt_or_ge b a
          · rw [← Memory.read_tail (Nat.ne_of_gt hlt) x rest, h a, Memory.read_tail (Nat.ne_of_gt hlt)]
          · rw [Memory.read_of_lt hrest (by omega), Memory.read_of_lt hrest' (by omega)]
        rw [hhead, ih hrest hrest' htail]
      · exact (Memory.head_lt_absurd hx' (Memory.wfFrom_cons.2 ⟨Nat.le_refl b, hx, hrest⟩) hgt (h b').symm).elim

/-- Settles O15: the canonical form lists exactly the bytes that are not zero. -/
theorem canonicalBuffersAreEqual : Obligations.CanonicalBuffersAreEqual := fun _ _ => Memory.eq_of_read

/-- An entry written twice is the entry written once. -/
theorem Memory.setPixel_again {m : Memory} (hm : m.wf = true) (i : Nat) (p : Pixel) :
    (m.setPixel i p).setPixel i p = m.setPixel i p := by
  have h1 := Memory.wf_setPixel hm i p
  refine Memory.eq_of_read (Memory.wf_setPixel h1 i p) h1 fun a => ?_
  by_cases ha : a < 4 * i ∨ 4 * i + 4 ≤ a
  · exact Memory.read_setPixel_outside h1 p ha
  · rw [Memory.read_setPixel h1, Memory.read_setPixel hm]
    split_ifs <;> rfl

/-! ### SET_PIXEL -/

theorem execSetPixel_of_not_active {s : State} (h : s.isActive = false) (index : Int) (r g b : Byte)
    (brightness : Binary64) : execSetPixel index r g b brightness s = .refused .notActive := by
  obtain ⟨-, hexec⟩ | ⟨n, hl, -⟩ | ⟨n, hl, -⟩ | ⟨n, -, hl, -⟩ := execSetPixel_cases s index r g b brightness
  · exact hexec
  all_goals simp [State.isActive_of_life hl] at h

theorem execSetPixel_nan {s : State} {n : Nat} {index : Int} {brightness : Binary64} (r g b : Byte)
    (hl : s.life = .active n) (h0 : 0 ≤ index) (hn : index < (n : Int)) (hnan : datum brightness = .nan) :
    execSetPixel index r g b brightness s = .refused .nanBrightness := by
  have hin : indexInRange index n = true := by simp [indexInRange, h0, hn]
  simp only [execSetPixel, hl, hin, if_true, quantise_eq_none.2 hnan]

/-- Settles O17: one equation per check, in the order of R82. -/
theorem setPixelCheckOrder : Obligations.SetPixelCheckOrder := by
  intro s index r g b brightness
  refine ⟨fun h => execSetPixel_of_not_active h index r g b brightness, fun n hl =>
    ⟨execSetPixel_badIndex r g b brightness hl, fun hzero => ?_, execSetPixel_nan r g b hl⟩⟩
  exact execSetPixel_badIndex r g b brightness hl (by omega)

/-- A second SET_PIXEL of the same entry finds the state the first one left. -/
theorem State.storePixel_again {s : State} (hwf : s.mem.wf = true) (i : Nat) (p : Pixel) :
    (((s.setMem (s.mem.setPixel i p)).returning .ok).setMem ((s.mem.setPixel i p).setPixel i p)).returning .ok =
      (s.setMem (s.mem.setPixel i p)).returning .ok :=
  congrArg (fun m => (s.setMem m).returning .ok) (Memory.setPixel_again hwf i p)

/-- Settles O18: the second SET_PIXEL meets the same checks and writes the entry that is already there. -/
theorem setPixelIdempotent : Obligations.SetPixelIdempotent := by
  intro s t index r g b brightness hwf hexec
  have hexec : execSetPixel index r g b brightness s = .next t := hexec
  obtain ⟨-, h⟩ | ⟨n, hl, hbad, h⟩ | ⟨-, -, -, -, -, h⟩ | ⟨n, level, hl, h0, hn, hq, h⟩ :=
    execSetPixel_cases s index r g b brightness
  all_goals
    rw [h] at hexec
    cases hexec
  · exact execSetPixel_badIndex r g b brightness hl hbad
  · exact (execSetPixel_stores (s := (s.setMem (s.mem.setPixel index.toNat ⟨level, b, g, r⟩)).returning .ok) r g b hl
      h0 hn hq).trans (congrArg Host.Outcome.next (State.storePixel_again hwf _ _))

/-- Settles O20: each state the buffer commands answer differs in the buffer and the status at most. -/
theorem bufferCommandsDoNoIO : Obligations.BufferCommandsDoNoIO := by
  refine fun s t => ⟨fun index r g b brightness hexec => ?setPixel, fun hexec => ?clear⟩
  case setPixel =>
    have hexec : execSetPixel index r g b brightness s = .next t := hexec
    obtain ⟨-, h⟩ | ⟨-, -, -, h⟩ | ⟨-, -, -, -, -, h⟩ | ⟨-, level, -, -, -, -, h⟩ :=
      execSetPixel_cases s index r g b brightness
    all_goals
      rw [h] at hexec
      cases hexec
    · rfl
    · rfl
  case clear =>
    have hexec : execClear s = .next t := hexec
    obtain ⟨-, h⟩ | ⟨-, h⟩ := execClear_cases s
    all_goals
      rw [h] at hexec
      cases hexec
    rfl

end Sys2Proof.Machine
end

section
/-! SHOW (41_show_transmit.md R100, R111, R112): what it answers when its writes succeed and when one fails, the content
of its stream by position (20_memory.md R31), and the sequencer's linear position (10_state.md R14). -/

namespace Sys2Proof.Machine

/-! ### What SHOW answers -/

theorem execShow_of_not_active {s : State} (h : s.isActive = false) : execShow s = .refused .notActive := by
  obtain ⟨-, hexec⟩ | ⟨ha, -⟩ | ⟨ha, -⟩ := execShow_cases s
  · exact hexec
  all_goals simp [h] at ha

theorem execShow_grants {s : State} {n : Nat} (hl : s.life = .active n) (hg : s.lineOk.grants (showWrites n)) :
    execShow s = .next ((s.showed (encodeStream s.pixels)).returning .ok) := by
  have ht : transmit s = .done (s.showed (encodeStream s.pixels)) :=
    transmit_grants (by rwa [State.count_of_active hl])
  simp only [execShow, hl, ht]

theorem execShow_first_failure {s : State} {n p : Nat} {line : Line} {level : Bool} (hl : s.life = .active n)
    (hx : s.showPlan[p]? = some (line, level)) (hg : s.lineOk.grants p) (hf : s.lineOk.answerAt p = false) :
    execShow s = .next ((s.wroteThenFailed (s.showPlan.take p) line level).returning
      (.lineAccessFailure (.write line level))) := by
  simp only [execShow, hl, transmit_first_failure hx hg hf]

theorem State.stream_length {s : State} {n : Nat} (hl : s.life = .active n) :
    (encodeStream s.pixels).length = 4 * n + 8 := by
  rw [encodeStream_length, State.pixels_length, State.count_of_active hl]
  omega

/-- The writes before the one at a position are as many as the position says. -/
theorem length_take_of_getElem? {α : Type} {l : List α} {p : Nat} {x : α} (h : l[p]? = some x) :
    (l.take p).length = p :=
  List.length_take_of_le (Nat.le_of_lt (List.getElem?_eq_some_iff.1 h).1)

/-- Settles O21: the run of the whole stream's writes. -/
theorem showSendsTheWholeStream : Obligations.ShowSendsTheWholeStream := by
  refine fun s => ⟨execShow_of_not_active, fun n hl hg => (execShow_grants hl hg).trans ?_⟩
  simp only [State.showed, State.stream_length hl, State.returning]

/-- Settles O22: the run of the stream's writes up to the first that fails. -/
theorem showStopsAtFirstFailure : Obligations.ShowStopsAtFirstFailure := by
  intro s n p line level hl hx hg hf
  refine ⟨_, execShow_first_failure hl hx hg hf, ?_, hl, rfl, ?_⟩
  · simp only [State.wroteThenFailed, State.returning, State.showPlan, length_take_of_getElem? hx]
  · obtain ⟨hp, -⟩ := List.getElem?_eq_some_iff.1 hx
    rwa [streamWrites_length, State.stream_length hl] at hp

/-- A SHOW keeps LIFE and the buffer, whatever the environment answers. -/
theorem execShow_keeps {s t : State} (h : execShow s = .next t) : t.life = s.life ∧ t.mem = s.mem := by
  obtain ⟨-, hexec⟩ | ⟨-, -, hexec⟩ | ⟨-, p, line, level, -, -, -, hexec⟩ := execShow_cases s
  all_goals
    rw [hexec] at h
    cases h
  · exact ⟨rfl, rfl⟩
  · exact ⟨rfl, rfl⟩

/-- Settles O23: the first SHOW left LIFE and the buffer, so the second sends the same stream. -/
theorem showAgainResendsEverything : Obligations.ShowAgainResendsEverything := by
  intro s t n hl hexec hg
  obtain ⟨hlife, hmem⟩ := execShow_keeps hexec
  refine ⟨_, execShow_grants (hlife.trans hl) hg, rfl, ?_⟩
  rw [← State.pixels_congr hlife hmem]
  rfl

/-! ### The stream by position -/

/-- The byte at an offset of the LED part is a byte of the frame of the entry there. -/
theorem ledFrames_getElem? (ps : List Pixel) (a : Nat) :
    (ps.flatMap ledFrameBytes)[a]? = (ps[a / 4]?).bind fun p => (ledFrameBytes p)[a % 4]? := by
  induction ps generalizing a with
  | nil => simp
  | cons p ps ih =>
    rw [List.flatMap_cons]
    obtain h | h := Nat.lt_or_ge a 4
    · rw [List.getElem?_append_left h, Nat.div_eq_of_lt h, Nat.mod_eq_of_lt h]
      rfl
    · rw [List.getElem?_append_right h, ih]
      have hdiv : a / 4 = (a - 4) / 4 + 1 := by omega
      have hmod : a % 4 = (a - 4) % 4 := by omega
      rw [hdiv, hmod]
      rfl

theorem State.pixels_getElem? {s : State} {i : Nat} (h : i < s.count) : s.pixels[i]? = some (s.pixel i) := by
  rw [State.pixels, List.getElem?_map, List.getElem?_range h]
  rfl

/-- The bytes of an entry's frame are the buffer's bytes, the header ORed into the first (R104). -/
theorem ledFrameBytes_pixel_getElem? (s : State) (a : Nat) :
    (ledFrameBytes (s.pixel (a / 4)))[a % 4]? =
      some (if a % 4 = 0 then 0xE0 ||| s.mem.read a else s.mem.read a) := by
  have ha := Nat.div_add_mod a 4
  obtain h | h | h | h : a % 4 = 0 ∨ a % 4 = 1 ∨ a % 4 = 2 ∨ a % 4 = 3 := by omega
  all_goals
    simp only [h, Nat.add_zero] at ha
    simp only [h, ledFrameBytes, State.pixel, Memory.pixel, ha]
    rfl

theorem State.ledFrames_getElem? {s : State} {a : Nat} (h : a < 4 * s.count) :
    (s.pixels.flatMap ledFrameBytes)[a]? = some (if a % 4 = 0 then 0xE0 ||| s.mem.read a else s.mem.read a) := by
  rw [Machine.ledFrames_getElem?, State.pixels_getElem? (by omega), Option.bind_some, ledFrameBytes_pixel_getElem?]

@[simp] theorem State.ledFrames_length (s : State) : (s.pixels.flatMap ledFrameBytes).length = 4 * s.count := by
  have h := encodeStream_length s.pixels
  rw [encodeStream, List.length_append, List.length_append, State.pixels_length] at h
  have hstart : startFrameBytes.length = 4 := rfl
  have hend : endFrameBytes.length = 4 := rfl
  omega

/-- Settles O25: the three parts of the stream, each by its own offset. -/
theorem streamPositions : Obligations.StreamPositions := by
  intro s
  have hlen : (encodeStream s.pixels).length = 4 + 4 * s.count + 4 := by
    rw [encodeStream_length, State.pixels_length]
  have hstart : (startFrameBytes ++ s.pixels.flatMap ledFrameBytes).length = 4 + 4 * s.count := by
    rw [List.length_append, State.ledFrames_length]
    rfl
  refine ⟨hlen, fun k hk => ?_⟩
  rw [encodeStream]
  obtain hfirst | hfirst := Nat.lt_or_ge k 4
  · rw [if_pos hfirst, List.append_assoc, List.getElem?_append_left hfirst]
    exact List.getElem?_replicate_of_lt (n := 4) hfirst
  · rw [if_neg (by omega)]
    obtain hled | hled := Nat.lt_or_ge k (4 + 4 * s.count)
    · rw [if_pos hled, List.getElem?_append_left (by omega), List.getElem?_append_right hfirst]
      exact State.ledFrames_getElem? (a := k - 4) (by omega)
    · rw [if_neg (by omega), List.getElem?_append_right (by omega), hstart]
      exact List.getElem?_replicate_of_lt (n := 4) (by omega)

/-- Settles O26: the stream of zero entries. -/
theorem zeroBufferIsAllOff : Obligations.ZeroBufferIsAllOff := fun _ => encodeStream_pixels_of_zero

/-- Settles O27: write `p` is a write of byte `p / 24`, and a completed SHOW made them all. -/
theorem lineWriteClosedForm : Obligations.LineWriteClosedForm := by
  intro s
  have hlen : (encodeStream s.pixels).length = 4 * s.count + 8 := by
    rw [encodeStream_length, State.pixels_length]
    omega
  refine ⟨by rw [streamWrites_length, hlen], fun p hp => ?write, fun n t hl hexec hok => ?completed⟩
  case write =>
    have hlt : p / 24 < (encodeStream s.pixels).length := by omega
    refine ⟨_, List.getElem?_eq_getElem hlt, ?_⟩
    rw [stream_get, List.getElem?_eq_getElem hlt, Option.bind_some, byte_get _ _ (by omega),
      Nat.mod_mod_of_dvd p (by decide : 3 ∣ 24)]
  case completed =>
    have hexec : execShow s = .next t := hexec
    obtain ⟨-, h⟩ | ⟨-, -, h⟩ | ⟨-, q, line, level, -, -, -, h⟩ := execShow_cases s
    all_goals
      rw [h] at hexec
      cases hexec
    · rfl
    · cases hok

/-! ### The sequencer -/

/-- Settles O28: each case of the sequencer, in linear positions. -/
theorem sequencerAdvancesByOne : Obligations.SequencerAdvancesByOne := by
  intro p total hk
  have hj := p.j.isLt
  simp only [TxPos.linear]
  obtain ⟨hph, q, hq, hqk, hqj, hqph⟩ | ⟨hph, hj0, q, hq, hqk, hqj, hqph⟩ |
    ⟨hph, hj0, hmore, q, hq, hqk, hqj, hqph⟩ | ⟨hph, hj0, hlast, hq⟩ := TxPos.next_cases p total
  case inr.inr.inr =>
    refine ⟨⟨fun _ => by omega, fun _ => hq⟩, fun r hr => ?_, rfl⟩
    rw [hq] at hr
    cases hr
  all_goals
    refine ⟨⟨fun h => ?_, fun h => ?_⟩, fun r hr => ?_, rfl⟩
    · rw [hq] at h
      cases h
    · omega
    · obtain rfl : q = r := Tx.pos.inj (hq.symm.trans hr)
      omega

end Sys2Proof.Machine
end

section
/-! The bytes of a trace, recovered by counting (41_show_transmit.md R113) and by clock edges (10_state.md R16). -/

namespace Sys2Proof.Machine

/-! ### Bits and bytes -/

theorem byteOfBits_bits (v : Byte) :
    byteOfBits (v.getLsbD 7) (v.getLsbD 6) (v.getLsbD 5) (v.getLsbD 4) (v.getLsbD 3) (v.getLsbD 2) (v.getLsbD 1)
      (v.getLsbD 0) = v := by
  revert v
  decide +kernel

theorem packBits_flatMap_bits (bytes : List Byte) : packBits (bytes.flatMap bitsMsbFirst) = bytes := by
  induction bytes with
  | nil => rfl
  | cons v vs ih =>
    rw [List.flatMap_cons, bitsMsbFirst]
    simp only [List.cons_append, List.nil_append, packBits, byteOfBits_bits, ih]

theorem bytesOfBits_driven (bytes : List Byte) :
    bytesOfBits ((bytes.flatMap bitsMsbFirst).map .driven) = some bytes := by
  rw [bytesOfBits, knownBits_driven, Option.map_some, packBits_flatMap_bits]

theorem streamWrites_cons (v : Byte) (vs : List Byte) : streamWrites (v :: vs) = byteWrites v ++ streamWrites vs :=
  List.flatMap_cons

/-- A stream sent with CLOCK at a level that counts gives all its bits. -/
theorem sampleBits_stream {counts : LineLevel → Bool} {clock : LineLevel} (h0 : counts (.driven false) = true)
    (hc : counts clock = true) (data : LineLevel) (bytes : List Byte) :
    sampleBits counts data clock (succeeded (streamWrites bytes)) = (bytes.flatMap bitsMsbFirst).map .driven := by
  induction bytes generalizing data clock with
  | nil => rfl
  | cons v vs ih =>
    rw [streamWrites_cons, succeeded_append, sampleBits_byte h0 hc, ih h0, List.flatMap_cons, List.map_append]

/-- A stream sent with CLOCK at a level that does not count loses its first bit. -/
theorem sampleBits_stream_first_lost {counts : LineLevel → Bool} {clock : LineLevel}
    (h0 : counts (.driven false) = true) (hc : counts clock = false) (data : LineLevel) (v : Byte) (vs : List Byte) :
    sampleBits counts data clock (succeeded (streamWrites (v :: vs))) =
      (((v :: vs).flatMap bitsMsbFirst).map .driven).drop 1 := by
  rw [streamWrites_cons, succeeded_append, sampleBits_byte_first_lost h0 hc, sampleBits_stream h0 h0,
    List.flatMap_cons, List.map_append]
  rfl

theorem recoverBits_stream (bytes : List Byte) :
    recoverBits (succeeded (streamWrites bytes)) = (bytes.flatMap bitsMsbFirst).map .driven :=
  sampleBits_stream rfl rfl .unknown bytes

theorem recoverBytes_stream (bytes : List Byte) : recoverBytes (succeeded (streamWrites bytes)) = some bytes := by
  rw [recoverBytes, recoverBits_stream, bytesOfBits_driven]

theorem edgeBytes_stream (bytes : List Byte) :
    edgeBytes (.driven false) (succeeded (streamWrites bytes)) = some bytes := by
  rw [edgeBytes, edgeBits, sampleBits_stream (by decide) (by decide), bytesOfBits_driven]

/-- By edges the first bit is lost where CLOCK is not at 0, and no other (R16). -/
theorem edgeBits_stream_first_lost {clock : LineLevel} (hc : clock ≠ .driven false) (v : Byte) (vs : List Byte) :
    edgeBits clock (succeeded (streamWrites (v :: vs))) =
      (recoverBits (succeeded (streamWrites (v :: vs)))).drop 1 := by
  rw [edgeBits, recoverBits_stream, sampleBits_stream_first_lost (by decide) (by simpa using hc)]

/-! ### The trace of a SHOW -/

/-- Settles O29: what a completed SHOW appends is the writes of the stream. -/
theorem bytesRecoveredFromTrace : Obligations.BytesRecoveredFromTrace := by
  intro s n hl hg
  refine ⟨_, succeeded (streamWrites (encodeStream s.pixels)), execShow_grants hl hg, rfl, ?_,
    recoverBytes_stream _⟩
  rw [succeeded, List.length_map, streamWrites_length, State.stream_length hl]

/-- Settles O54: the stream begins with a byte of the start frame, whose first bit is the one the edges may lose. -/
theorem edgesRecoverTheBytes : Obligations.EdgesRecoverTheBytes := by
  intro s n hl hg
  refine ⟨_, succeeded (streamWrites (encodeStream s.pixels)), execShow_grants hl hg, rfl, rfl, fun hc => ?_,
    fun hc => edgeBits_stream_first_lost hc _ _⟩
  rw [hc, edgeBytes_stream]

end Sys2Proof.Machine
end

section
/-! A SHOW made one line write at a time (20_memory.md R36): the state after each write, and that the last one is the
SHOW command's. -/

namespace Sys2Proof.Machine

/-- The state of a SHOW after its first `p` line writes, all of which succeeded. -/
def State.midShow (s : State) (p : Nat) : State :=
  State.wrote { s with tx := .pos TxPos.start } (s.showPlan.take p)

@[simp] theorem State.midShow_zero (s : State) : s.midShow 0 = { s with tx := .pos TxPos.start } :=
  State.wrote_nil _

theorem showWrites_eq (n : Nat) : showWrites n = 24 * streamBytes n := by
  simp only [showWrites, streamBytes]
  omega

theorem exists_showWrites_eq_succ (n : Nat) : ∃ q, showWrites n = q + 1 :=
  Nat.exists_eq_succ_of_ne_zero (by rw [showWrites]; omega)

theorem State.showPlan_take_length {s : State} {p : Nat} (hp : p ≤ showWrites s.count) :
    (s.showPlan.take p).length = p :=
  List.length_take_of_le (by rwa [State.showPlan_length])

theorem State.midShow_tx {s : State} {p : Nat} (hp : p < showWrites s.count) : (s.midShow p).tx = .pos (posOf p) := by
  have htx : (s.midShow p).tx =
      Tx.advanceBy (streamBytes s.count) (s.showPlan.take p).length (.pos TxPos.start) := rfl
  rw [htx, State.showPlan_take_length (Nat.le_of_lt hp), advanceBy_start _ _ (by rwa [← showWrites_eq])]

theorem State.midShow_answerAt {s : State} {p : Nat} (hp : p < showWrites s.count) :
    (s.midShow p).lineOk.answerAt 0 = s.lineOk.answerAt p := by
  have hok : (s.midShow p).lineOk = s.lineOk.skip (s.showPlan.take p).length := rfl
  rw [hok, State.showPlan_take_length (Nat.le_of_lt hp), Oracle.answerAt_skip, Nat.add_zero]

theorem State.midShow_succ {s : State} {p : Nat} {x : Line × Bool} (hx : s.showPlan[p]? = some x) :
    (s.midShow p).wrote [x] = s.midShow (p + 1) := by
  rw [State.midShow, State.midShow, wrote_append, List.take_add_one, hx, Option.toList_some]

theorem State.midShow_failed (s : State) (p : Nat) (line : Line) (level : Bool) :
    (s.midShow p).wroteThenFailed [] line level = s.wroteThenFailed (s.showPlan.take p) line level := by
  rw [State.midShow, wrote_append_failed, List.append_nil]
  rfl

/-- After its last write a SHOW is where the command leaves it (R100, R112). -/
theorem State.midShow_all (s : State) : s.midShow (showWrites s.count) = s.showed (encodeStream s.pixels) := by
  obtain ⟨q, hq⟩ := exists_showWrites_eq_succ s.count
  have hlen : s.showPlan.length = 24 * (encodeStream s.pixels).length := streamWrites_length _
  have hidle : Tx.advanceBy (streamBytes s.count) s.showPlan.length (.pos TxPos.start) = .idle := by
    rw [State.showPlan_length, hq, advanceBy_succ, advanceBy_start _ _ (by rw [← showWrites_eq]; omega)]
    exact posOf_last _ _ (by rw [← showWrites_eq, hq])
  rw [State.midShow, List.take_of_length_le (by rw [State.showPlan_length])]
  simp only [State.wrote, State.showed, State.count, State.mk.injEq, true_and, and_true]
  refine ⟨hidle, encodeStream_levels _ _ _, encodeStream_levels _ _ _, rfl, by rw [hlen]⟩

/-- The stream byte and the line write due after `p` writes of a SHOW (R115). -/
theorem State.midShow_due {s : State} {n p : Nat} (hl : s.life = .active n) (hp : p < showWrites n) :
    ∃ byte, (s.midShow p).streamByte (posOf p).k = some byte ∧ s.showPlan[p]? = some (writeAt byte (posOf p)) := by
  have hk : p / 24 < (encodeStream s.pixels).length := by
    rw [State.stream_length hl]
    rw [showWrites] at hp
    omega
  refine ⟨_, ?_, writeAt_posOf _ _ _ (List.getElem?_eq_getElem hk)⟩
  have hstream : (s.midShow p).streamByte (posOf p).k = (encodeStream s.pixels)[p / 24]? := by
    have hmid : (s.midShow p).life = .active n := hl
    rw [State.streamByte, hmid]
    rfl
  rw [hstream, List.getElem?_eq_getElem hk]

/-- While TX is not IDLE only the running SHOW goes on (R117). -/
theorem step_running {s : State} {p : TxPos} (htx : s.tx = .pos p) : step s = resume p s := by
  simp only [step, fetch, htx]

/-- At a position that no stream has there is no next write (log 12). -/
theorem resume_none {p : TxPos} {s : State} (hb : s.streamByte p.k = none) :
    resume p s = .fault (.noSuchStreamPosition p.k) := by
  obtain ⟨-, hres⟩ | ⟨byte, hb', -⟩ | ⟨byte, hb', -⟩ := resume_cases p s
  · exact hres
  all_goals simp [hb] at hb'

/-- The next write of a running SHOW, when it succeeds (R36, R109). -/
theorem resume_ok {p : TxPos} {s : State} {byte : Byte} (hb : s.streamByte p.k = some byte)
    (ha : s.lineOk.answerAt 0 = true) :
    resume p s = .next (if s.tx.advance (streamBytes s.count) = .idle then
      (s.wrote [writeAt byte p]).returning .ok else s.wrote [writeAt byte p]) := by
  obtain ⟨hnone, -⟩ | ⟨byte', hb', -, hres⟩ | ⟨-, -, hfail, -⟩ := resume_cases p s
  · simp [hb] at hnone
  · obtain rfl : byte = byte' := Option.some.inj (hb.symm.trans hb')
    exact hres
  · simp [ha] at hfail

/-- The next write of a running SHOW, when it fails (R109, R111). -/
theorem resume_failed {p : TxPos} {s : State} {byte : Byte} (hb : s.streamByte p.k = some byte)
    (ha : s.lineOk.answerAt 0 = false) :
    resume p s = .next ((s.wroteThenFailed [] (writeAt byte p).1 (writeAt byte p).2).returning
      (.lineAccessFailure (.write (writeAt byte p).1 (writeAt byte p).2))) := by
  obtain ⟨hnone, -⟩ | ⟨-, -, hok, -⟩ | ⟨byte', hb', -, hres⟩ := resume_cases p s
  · simp [hb] at hnone
  · simp [ha] at hok
  · obtain rfl : byte = byte' := Option.some.inj (hb.symm.trans hb')
    exact hres

/-- One more successful write of a SHOW, which returns after its last. -/
theorem step_midShow_ok {s : State} {n p : Nat} (hl : s.life = .active n) (hp : p < showWrites n)
    (ha : s.lineOk.answerAt p = true) :
    step (s.midShow p) =
      .next (if p + 1 = showWrites n then (s.midShow (p + 1)).returning .ok else s.midShow (p + 1)) := by
  obtain ⟨byte, hbyte, hx⟩ := State.midShow_due hl hp
  have hcount := State.count_of_active hl
  have htx := State.midShow_tx (s := s) (p := p) (by rwa [hcount])
  have hans := State.midShow_answerAt (s := s) (p := p) (by rwa [hcount])
  have hstep := step_running htx
  have hadvance : (s.midShow p).tx.advance (streamBytes (s.midShow p).count) = .idle ↔ p + 1 = showWrites n := by
    have hmid : (s.midShow p).count = n := hcount
    rw [htx, hmid, Tx.advance, showWrites_eq]
    rw [showWrites_eq] at hp
    obtain hlt | heq : p + 1 < 24 * streamBytes n ∨ p + 1 = 24 * streamBytes n := by omega
    · rw [posOf_next _ _ hlt]
      exact ⟨fun h => (by cases h), fun h => by omega⟩
    · exact ⟨fun _ => heq, fun _ => posOf_last _ _ heq⟩
  rw [hstep, resume_ok hbyte (hans.trans ha), State.midShow_succ hx]
  simp only [hadvance]

/-- A write of a SHOW that fails ends it. -/
theorem step_midShow_failed {s : State} {n p : Nat} {line : Line} {level : Bool} (hl : s.life = .active n)
    (hp : p < showWrites n) (hx : s.showPlan[p]? = some (line, level)) (ha : s.lineOk.answerAt p = false) :
    step (s.midShow p) = .next ((s.wroteThenFailed (s.showPlan.take p) line level).returning
      (.lineAccessFailure (.write line level))) := by
  obtain ⟨byte, hbyte, hdue⟩ := State.midShow_due hl hp
  have hcount := State.count_of_active hl
  have htx := State.midShow_tx (s := s) (p := p) (by rwa [hcount])
  have hans := State.midShow_answerAt (s := s) (p := p) (by rwa [hcount])
  have hstep := step_running htx
  have hw : writeAt byte (posOf p) = (line, level) := Option.some.inj (hdue.symm.trans hx)
  rw [hstep, resume_failed hbyte (hans.trans ha), hw, State.midShow_failed]

/-- While its writes succeed, a SHOW made one write at a time is in the middle of the stream. -/
theorem run_midShow {s : State} {n p : Nat} (hl : s.life = .active n) (hp : p < showWrites n)
    (hg : s.lineOk.grants p) : Host.Core.run Sys2Proof.core p (s.midShow 0) = .next (s.midShow p) := by
  induction p with
  | zero => rfl
  | succ p ih =>
    rw [run_succ _ _ _ (ih (by omega) (Oracle.grants_mono hg (Nat.le_succ p))),
      step_midShow_ok hl (by omega) (hg p (Nat.lt_succ_self p)), if_neg (by omega)]
    rfl

/-- Settles O30: the last write of the run leaves what the command leaves, whether the writes all succeed or one
fails. -/
theorem oneWriteAtATimeIsTheSameShow : Obligations.OneWriteAtATimeIsTheSameShow := by
  intro s n hl
  have hcount := State.count_of_active hl
  rw [← State.midShow_zero]
  obtain hg | ⟨p, hp, hg, hf⟩ := Oracle.grants_or_first_failure s.lineOk (showWrites n)
  · obtain ⟨q, hq⟩ := exists_showWrites_eq_succ n
    refine ⟨q + 1, q.succ_pos, Nat.le_of_eq hq.symm, ?_⟩
    rw [run_succ _ _ _ (run_midShow hl (by omega) (Oracle.grants_mono hg (by omega))),
      step_midShow_ok hl (by omega) (hg q (by omega)), if_pos hq.symm, ← hq, ← hcount, State.midShow_all]
    exact (execShow_grants hl hg).symm
  · have hlt : p < s.showPlan.length := by rwa [State.showPlan_length, hcount]
    have hx : s.showPlan[p]? = some (s.showPlan[p].1, s.showPlan[p].2) := List.getElem?_eq_getElem hlt
    refine ⟨p + 1, p.succ_pos, hp, ?_⟩
    rw [run_succ _ _ _ (run_midShow hl hp hg), step_midShow_failed hl hp hx hf]
    exact (execShow_first_failure hl hx hg hf).symm

end Sys2Proof.Machine
end

section
/-! The frames and micro-operations run by themselves (41_show_transmit.md R103 to R109): all their writes, or those up
to the first that fails. -/

namespace Sys2Proof.Machine

theorem exec_micro_grants {i : Instr} {s : State} (hc : i.isCommand = false)
    (hg : s.lineOk.grants (microWrites i).length) : exec i s = .next (s.wrote (microWrites i)) := by
  rw [exec_eq_drive hc, drive_grants hg, Attempt.micro]

theorem exec_micro_first_failure {i : Instr} {s : State} {p : Nat} {line : Line} {level : Bool}
    (hc : i.isCommand = false) (hx : (microWrites i)[p]? = some (line, level)) (hg : s.lineOk.grants p)
    (hf : s.lineOk.answerAt p = false) :
    exec i s = .next ((s.wroteThenFailed ((microWrites i).take p) line level).returning
      (.lineAccessFailure (.write line level))) := by
  rw [exec_eq_drive hc, drive_first_failure hx hg hf, Attempt.micro]

/-- Settles O31: the run of the instruction's own writes. -/
theorem microOperationsComplete : Obligations.MicroOperationsComplete := fun _ _ => exec_micro_grants

/-- Settles O32: the run of the instruction's own writes up to the first that fails. -/
theorem microOperationsStopAtFailure : Obligations.MicroOperationsStopAtFailure := fun _ _ _ _ _ =>
  exec_micro_first_failure

/-! ### One line write (R109) -/

theorem State.wrote_one_lvl_same (s : State) (line : Line) (level : Bool) :
    (s.wrote [(line, level)]).lvl line = .driven level := by
  cases line <;> rfl

theorem State.wrote_one_lvl_other (s : State) {line other : Line} (h : other ≠ line) (level : Bool) :
    (s.wrote [(line, level)]).lvl other = s.lvl other := by
  cases line <;> cases other
  · exact absurd rfl h
  · rfl
  · rfl
  · exact absurd rfl h

theorem State.wroteThenFailed_nil_lvl_same (s : State) (line : Line) (level : Bool) :
    (s.wroteThenFailed [] line level).lvl line = .unknown := by
  cases line <;> rfl

theorem State.wroteThenFailed_nil_lvl_other (s : State) {line other : Line} (h : other ≠ line) (level : Bool) :
    (s.wroteThenFailed [] line level).lvl other = s.lvl other := by
  cases line <;> cases other
  · exact absurd rfl h
  · rfl
  · rfl
  · exact absurd rfl h

theorem Oracle.grants_one {o : Oracle} : o.grants 1 ↔ o.answerAt 0 = true := by
  rw [Oracle.grants_succ]
  exact ⟨fun h => h.1, fun h => ⟨h, Oracle.grants_zero _⟩⟩

/-- Settles O33: the run of one write, in both answers of the environment. -/
theorem lineWriteEffect : Obligations.LineWriteEffect := by
  refine ⟨rfl, rfl, fun s line other level hne => ⟨fun ha => ?succeeds, fun ha => ?fails⟩⟩
  case succeeds =>
    exact ⟨_, exec_micro_grants (i := .lineWrite line level) rfl (Oracle.grants_one.2 ha),
      State.wrote_one_lvl_same s line level, State.wrote_one_lvl_other s hne level, rfl⟩
  case fails =>
    refine ⟨_, exec_micro_first_failure (i := .lineWrite line level) (p := 0) rfl rfl (Oracle.grants_zero _) ha,
      State.wroteThenFailed_nil_lvl_same s line level, State.wroteThenFailed_nil_lvl_other s hne level, ?_⟩
    simp only [microWrites, List.take_zero, State.wroteThenFailed, State.returning, succeeded, List.map_nil,
      List.append_nil, List.length_nil, Nat.zero_add]

/-! ### SEND_BIT and SEND_BYTE (R107, R108) -/

/-- What W gains from an instruction below the commands that stops at its write number `p`. -/
theorem exec_micro_failure_trace {i : Instr} {s : State} {p : Nat} {line : Line} {level : Bool}
    (hc : i.isCommand = false) (hx : (microWrites i)[p]? = some (line, level)) (hg : s.lineOk.grants p)
    (hf : s.lineOk.answerAt p = false) :
    ∃ t, exec i s = .next t ∧
      t.w = s.w ++ (succeeded ((microWrites i).take p) ++ [{ line := line, level := level, ok := false }]) ∧
      t.reply = some (.lineAccessFailure (.write line level)) :=
  ⟨_, exec_micro_first_failure hc hx hg hf, List.append_assoc _ _ _, rfl⟩

/-- Settles O34: the three writes of a bit, and the run cut short at each of them. -/
theorem sendBitIsThreeWrites : Obligations.SendBitIsThreeWrites := by
  intro s b
  refine ⟨fun hg => ?all, fun hf => ?first, fun hg hf => ?second, fun hg hf => ?third⟩
  case all => exact ⟨_, exec_micro_grants (i := .sendBit b) rfl hg, rfl, rfl, rfl, rfl⟩
  case first => exact exec_micro_failure_trace (i := .sendBit b) (p := 0) rfl rfl (Oracle.grants_zero _) hf
  case second => exact exec_micro_failure_trace (i := .sendBit b) (p := 1) rfl rfl hg hf
  case third => exact exec_micro_failure_trace (i := .sendBit b) (p := 2) rfl rfl hg hf

/-- Settles O35: the bits of the one byte in the trace. -/
theorem bytesAreSentMsbFirst : Obligations.BytesAreSentMsbFirst := by
  intro s v hg
  refine ⟨_, succeeded (byteWrites v), exec_micro_grants (i := .sendByte v) rfl hg, rfl, ?_⟩
  have hbits := recoverBits_stream [v]
  rw [streamWrites_cons] at hbits
  simpa [streamWrites, bitsMsbFirst] using hbits

end Sys2Proof.Machine
end

section
/-! NEW and DISPOSE when a request of theirs fails (42_lifecycle.md R130 to R135, 60_exceptions.md R155), and the
lifecycle, the refusals and the statuses of every command (10_state.md R13, 60_exceptions.md R150 to R158). -/

namespace Sys2Proof.Machine

/-! ### NEW -/

theorem ledCountAdmitted_of_le {ledCount : Int} {nMax : Nat} (h0 : 0 ≤ ledCount) (hmax : ledCount ≤ (nMax : Int)) :
    ledCountAdmitted ledCount nMax = true := by
  simp [ledCountAdmitted, h0, hmax]

theorem execNew_open_fails {s : State} {ledCount : Int} (hl : s.life = .unbuilt) (h0 : 0 ≤ ledCount)
    (hmax : ledCount ≤ (s.cfg.nMax : Int)) (ho : s.openOk.answerAt 0 = false) :
    execNew ledCount s = .next (State.failNew { s with openOk := s.openOk.skip 1 } .openLines) := by
  simp only [execNew, hl, ledCountAdmitted_of_le h0 hmax, Oracle.ask_eq, ho, if_true, Bool.false_eq_true, if_false]

theorem execNew_first_failure {s : State} {ledCount : Int} {p : Nat} {line : Line} {level : Bool}
    (hl : s.life = .unbuilt) (h0 : 0 ≤ ledCount) (hmax : ledCount ≤ (s.cfg.nMax : Int))
    (ho : s.openOk.answerAt 0 = true) (hx : (s.openedWith ledCount.toNat).showPlan[p]? = some (line, level))
    (hg : s.lineOk.grants p) (hf : s.lineOk.answerAt p = false) :
    execNew ledCount s = .next (State.failNew ((s.openedWith ledCount.toNat).wroteThenFailed
      ((s.openedWith ledCount.toNat).showPlan.take p) line level) (.write line level)) := by
  have hshow : execNew ledCount s =
      match transmit (s.openedWith ledCount.toNat) with
      | .done s1 => .next (s1.returning .ok)
      | .raised s1 site => .next (s1.failNew site) := by
    simp only [execNew, hl, ledCountAdmitted_of_le h0 hmax, Oracle.ask_eq, ho, if_true]
    rfl
  rw [hshow, transmit_first_failure (s := s.openedWith ledCount.toNat) hx hg hf]

theorem State.openedWith_showPlan (s : State) (n : Nat) :
    (s.openedWith n).showPlan = streamWrites (allOffStream n) := by
  rw [State.showPlan, State.openedWith_stream]

/-- Every command is refused in a state with LIFE = FAILED (D12). -/
theorem exec_refused_of_failed {i : Instr} {s : State} (hc : i.isCommand = true) (hl : s.life = .failed) :
    ∃ r, exec i s = .refused r := by
  have ha : s.isActive = false := by rw [State.isActive, hl]
  cases i with
  | new ledCount => exact ⟨.alreadyBuiltOrFailed, by simp only [exec, execNew, hl]⟩
  | setPixel index r g b brightness => exact ⟨_, execSetPixel_of_not_active ha index r g b brightness⟩
  | clear => exact ⟨_, execClear_of_not_active ha⟩
  | showBuffer => exact ⟨_, execShow_of_not_active ha⟩
  | dispose => exact ⟨.notActive, by simp only [exec, execDispose, hl]⟩
  | startFrame | led | endFrame | sendByte | sendBit | lineWrite => cases hc

/-- A failed write leaves its line at an unknown level (D8). -/
theorem State.wroteThenFailed_lvl_same (s : State) (writes : List (Line × Bool)) (line : Line) (level : Bool) :
    (s.wroteThenFailed writes line level).lvl line = .unknown := by
  cases line <;> rfl

/-- Settles O37: the open that fails, the SHOW that fails, and the refusals after either. -/
theorem failedNewIsFinal : Obligations.FailedNewIsFinal := by
  refine ⟨fun s ledCount hl h0 hmax => ⟨execNew_open_fails hl h0 hmax, fun p line level ho hx hg hf => ?_⟩,
    fun i s => exec_refused_of_failed⟩
  rw [← State.openedWith_showPlan s] at hx ⊢
  exact ⟨_, execNew_first_failure hl h0 hmax ho hx hg hf, rfl, rfl, State.wroteThenFailed_lvl_same _ _ line level,
    rfl, rfl⟩

/-! ### DISPOSE -/

theorem State.zeroBuffer_stream {s : State} {n : Nat} (hl : s.life = .active n) :
    encodeStream s.zeroBuffer.pixels = allOffStream n := by
  have hcount := State.count_of_active hl
  have hzero : ∀ i, i < s.zeroBuffer.count → s.zeroBuffer.pixel i = Pixel.zero := by
    intro i hi
    rw [State.count_zeroBuffer] at hi
    exact Memory.pixel_zeroBelow s.mem hi
  rw [encodeStream_pixels_of_zero hzero, State.count_zeroBuffer, hcount]

theorem State.zeroBuffer_showPlan {s : State} {n : Nat} (hl : s.life = .active n) :
    s.zeroBuffer.showPlan = streamWrites (allOffStream n) := by
  rw [State.showPlan, State.zeroBuffer_stream hl]

theorem execDispose_grants {s : State} {n : Nat} (hl : s.life = .active n) (hg : s.lineOk.grants (showWrites n)) :
    execDispose s = .next ((s.zeroBuffer.showed (allOffStream n)).release.returning
      (disposeStatus none (s.releaseOk.answerAt 0))) := by
  have ht : transmit s.zeroBuffer = .done (s.zeroBuffer.showed (allOffStream n)) := by
    rw [← State.zeroBuffer_stream hl]
    exact transmit_grants (by rwa [State.count_zeroBuffer, State.count_of_active hl])
  simp only [execDispose, hl, ht, Oracle.ask_eq]
  rfl

theorem execDispose_first_failure {s : State} {n p : Nat} {line : Line} {level : Bool} (hl : s.life = .active n)
    (hx : (streamWrites (allOffStream n))[p]? = some (line, level)) (hg : s.lineOk.grants p)
    (hf : s.lineOk.answerAt p = false) :
    execDispose s =
      .next ((s.zeroBuffer.wroteThenFailed ((streamWrites (allOffStream n)).take p) line level).release.returning
        (.lineAccessFailure (.write line level))) := by
  rw [← State.zeroBuffer_showPlan hl] at hx ⊢
  simp only [execDispose, hl, transmit_first_failure (s := s.zeroBuffer) hx hg hf]
  rfl

/-- The last events of a trace that ends with a stream's writes are those writes. -/
theorem drop_succeeded_stream (w : List Event) (bytes : List Byte) :
    (w ++ succeeded (streamWrites bytes)).drop ((w ++ succeeded (streamWrites bytes)).length - 24 * bytes.length) =
      succeeded (streamWrites bytes) := by
  have hlen : (succeeded (streamWrites bytes)).length = 24 * bytes.length := by
    rw [succeeded, List.length_map, streamWrites_length]
  rw [List.length_append, hlen, Nat.add_sub_cancel, List.drop_left]

/-- Settles O38: the SHOW of the zeroed buffer, then the release. -/
theorem disposeDarkensAndReleases : Obligations.DisposeDarkensAndReleases := by
  intro s n hl hg
  refine ⟨_, execDispose_grants hl hg, ?_, ?_⟩
  · simp only [State.showed, State.release, State.returning, State.zeroBuffer, State.setMem, allOffStream_length,
      Oracle.ask_eq, disposeStatus]
  · have hdrop := drop_succeeded_stream s.w (allOffStream n)
    rwa [allOffStream_length] at hdrop

/-- Whatever the environment answers, DISPOSE of a controller that exists releases the lines (R133, R135). -/
theorem execDispose_releases {s : State} {n : Nat} (hl : s.life = .active n) :
    ∃ (u : State) (status : Status),
      execDispose s = .next (u.release.returning status) ∧ u.releaseOk = s.releaseOk := by
  obtain ⟨ha, -⟩ | ⟨-, -, hexec⟩ | ⟨-, p, line, level, -, -, -, hexec⟩ := execDispose_cases s
  · simp [State.isActive_of_life hl] at ha
  · exact ⟨_, _, hexec, rfl⟩
  · exact ⟨_, _, hexec, rfl⟩

/-- Settles O39: the release in every case, and the SHOW cut short where its first write fails. -/
theorem disposeAlwaysReleases : Obligations.DisposeAlwaysReleases := by
  intro s n hl
  obtain ⟨u, status, hexec, hrelease⟩ := execDispose_releases hl
  refine ⟨_, hexec, rfl, rfl, rfl, rfl, rfl, ?_, fun p line level hx hg hf => ?_⟩
  · rw [State.returning_releaseOk, State.release_releaseOk, Oracle.ask_eq, hrelease]
  · rw [Host.Outcome.next.inj (hexec.symm.trans (execDispose_first_failure hl hx hg hf))]
    exact ⟨rfl, rfl⟩

/-! ### Lifecycle, refusals and statuses -/

/-- Settles O41: what NEW answers from UNBUILT, and what each other command answers while ACTIVE. -/
theorem lifecycleTransitions : Obligations.LifecycleTransitions := by
  intro i s t hc hexec
  have stays : ∀ {n : Nat}, s.life = .active n → i ≠ .dispose → (∀ ledCount, i ≠ .new ledCount) →
      t.life = s.life → ∃ n, s.life = .active n ∧ ((i = .dispose ∧ t.life = .unbuilt) ∨
        (i ≠ .dispose ∧ (∀ ledCount, i ≠ .new ledCount) ∧ t.life = .active n)) :=
    fun hl hd hn ht => ⟨_, hl, .inr ⟨hd, hn, ht.trans hl⟩⟩
  cases i with
  | new ledCount =>
    left
    have hexec : execNew ledCount s = .next t := hexec
    obtain ⟨-, h⟩ | ⟨-, -, h⟩ | ⟨hl, -, -, -, h⟩ | ⟨hl, -, -, -, ⟨-, h⟩ | ⟨p, line, level, -, -, -, h⟩⟩ :=
      execNew_cases s ledCount
    all_goals
      rw [h] at hexec
      cases hexec
    · exact ⟨ledCount, rfl, hl, .inr ⟨rfl, _, rfl⟩⟩
    · exact ⟨ledCount, rfl, hl, .inl ⟨rfl, rfl⟩⟩
    · exact ⟨ledCount, rfl, hl, .inr ⟨rfl, _, rfl⟩⟩
  | setPixel index r g b brightness =>
    right
    have hexec : execSetPixel index r g b brightness s = .next t := hexec
    obtain ⟨-, h⟩ | ⟨n, hl, -, h⟩ | ⟨n, -, -, -, -, h⟩ | ⟨n, level, hl, -, -, -, h⟩ :=
      execSetPixel_cases s index r g b brightness
    all_goals
      rw [h] at hexec
      cases hexec
    · exact stays hl nofun nofun rfl
    · exact stays hl nofun nofun rfl
  | clear =>
    right
    have hexec : execClear s = .next t := hexec
    obtain ⟨-, h⟩ | ⟨ha, h⟩ := execClear_cases s
    all_goals
      rw [h] at hexec
      cases hexec
    obtain ⟨n, hl⟩ := State.life_of_active ha
    exact stays hl nofun nofun rfl
  | showBuffer =>
    right
    have hexec : execShow s = .next t := hexec
    cases ha : s.isActive
    · rw [execShow_of_not_active ha] at hexec
      cases hexec
    · obtain ⟨n, hl⟩ := State.life_of_active ha
      exact stays hl nofun nofun (execShow_keeps hexec).1
  | dispose =>
    right
    have hexec : execDispose s = .next t := hexec
    obtain ⟨-, h⟩ | ⟨ha, -, h⟩ | ⟨ha, p, line, level, -, -, -, h⟩ := execDispose_cases s
    all_goals
      rw [h] at hexec
      cases hexec
    all_goals
      obtain ⟨n, hl⟩ := State.life_of_active ha
      exact ⟨n, hl, .inl ⟨rfl, rfl⟩⟩
  | startFrame | led | endFrame | sendByte | sendBit | lineWrite => cases hc

end Sys2Proof.Machine
end

section
/-! Refusals, faults and statuses (60_exceptions.md R150 to R158): when a command is refused, that nothing faults, and
which status each command can end with. -/

namespace Sys2Proof.Machine

/-! ### Refusals -/

theorem execDispose_of_not_active {s : State} (h : s.isActive = false) : execDispose s = .refused .notActive := by
  obtain ⟨-, hexec⟩ | ⟨ha, -⟩ | ⟨ha, -⟩ := execDispose_cases s
  · exact hexec
  all_goals simp [h] at ha

theorem execNew_of_built {s : State} (h : s.life ≠ .unbuilt) (ledCount : Int) :
    execNew ledCount s = .refused .alreadyBuiltOrFailed := by
  obtain ⟨-, hexec⟩ | ⟨hl, -⟩ | ⟨hl, -⟩ | ⟨hl, -⟩ := execNew_cases s ledCount
  · exact hexec
  all_goals exact absurd hl h

theorem execNew_badCount {s : State} {ledCount : Int} (hl : s.life = .unbuilt)
    (hbad : ledCount < 0 ∨ (s.cfg.nMax : Int) < ledCount) : execNew ledCount s = .refused .badLedCount := by
  obtain ⟨hne, -⟩ | ⟨-, -, hexec⟩ | ⟨-, h0, hmax, -⟩ | ⟨-, h0, hmax, -⟩ := execNew_cases s ledCount
  · exact absurd hl hne
  · exact hexec
  all_goals omega

/-- The condition of each reason to refuse an instruction (R158); the two others are not raised by an instruction. -/
def RefusalCondition (i : Instr) (s : State) : Refusal → Prop
  | .notActive => (∀ ledCount, i ≠ .new ledCount) ∧ s.isActive = false
  | .alreadyBuiltOrFailed => (∃ ledCount, i = .new ledCount) ∧ s.life ≠ .unbuilt
  | .badLedCount =>
    ∃ ledCount, i = .new ledCount ∧ s.life = .unbuilt ∧ (ledCount < 0 ∨ (s.cfg.nMax : Int) < ledCount)
  | .nanBrightness =>
    ∃ index r g b brightness n, i = .setPixel index r g b brightness ∧ s.life = .active n ∧ 0 ≤ index ∧
      index < (n : Int) ∧ datum brightness = .nan
  | .notModelled _ => False
  | .reservedOp _ => False

/-- A command is refused only where the condition of the reason holds. -/
theorem refusalCondition_of_refused {i : Instr} {s : State} {r : Refusal} (hc : i.isCommand = true)
    (h : exec i s = .refused r) : RefusalCondition i s r := by
  cases i with
  | new ledCount =>
    have h : execNew ledCount s = .refused r := h
    obtain ⟨hne, hexec⟩ | ⟨hl, hbad, hexec⟩ | ⟨-, -, -, -, hexec⟩ |
      ⟨-, -, -, -, ⟨-, hexec⟩ | ⟨p, line, level, -, -, -, hexec⟩⟩ := execNew_cases s ledCount
    all_goals
      rw [hexec] at h
      cases h
    · exact ⟨⟨ledCount, rfl⟩, hne⟩
    · exact ⟨ledCount, rfl, hl, hbad⟩
  | setPixel index red green blue brightness =>
    have h : execSetPixel index red green blue brightness s = .refused r := h
    obtain ⟨ha, hexec⟩ | ⟨n, -, -, hexec⟩ | ⟨n, hl, h0, hn, hnan, hexec⟩ | ⟨n, level, -, -, -, -, hexec⟩ :=
      execSetPixel_cases s index red green blue brightness
    all_goals
      rw [hexec] at h
      cases h
    · exact ⟨nofun, ha⟩
    · exact ⟨index, red, green, blue, brightness, n, rfl, hl, h0, hn, hnan⟩
  | clear =>
    have h : execClear s = .refused r := h
    obtain ⟨ha, hexec⟩ | ⟨-, hexec⟩ := execClear_cases s
    all_goals
      rw [hexec] at h
      cases h
    exact ⟨nofun, ha⟩
  | showBuffer =>
    have h : execShow s = .refused r := h
    obtain ⟨ha, hexec⟩ | ⟨-, -, hexec⟩ | ⟨-, p, line, level, -, -, -, hexec⟩ := execShow_cases s
    all_goals
      rw [hexec] at h
      cases h
    exact ⟨nofun, ha⟩
  | dispose =>
    have h : execDispose s = .refused r := h
    obtain ⟨ha, hexec⟩ | ⟨-, -, hexec⟩ | ⟨-, p, line, level, -, -, -, hexec⟩ := execDispose_cases s
    all_goals
      rw [hexec] at h
      cases h
    exact ⟨nofun, ha⟩
  | startFrame | led | endFrame | sendByte | sendBit | lineWrite => cases hc

/-- A command is refused wherever the condition of a reason holds. -/
theorem refused_of_refusalCondition {i : Instr} {s : State} {r : Refusal} (hc : i.isCommand = true)
    (h : RefusalCondition i s r) : exec i s = .refused r := by
  cases r with
  | notActive =>
    obtain ⟨hnew, ha⟩ := h
    cases i with
    | new ledCount => exact absurd rfl (hnew ledCount)
    | setPixel index r g b brightness => exact execSetPixel_of_not_active ha index r g b brightness
    | clear => exact execClear_of_not_active ha
    | showBuffer => exact execShow_of_not_active ha
    | dispose => exact execDispose_of_not_active ha
    | startFrame | led | endFrame | sendByte | sendBit | lineWrite => cases hc
  | alreadyBuiltOrFailed =>
    obtain ⟨⟨ledCount, rfl⟩, hne⟩ := h
    exact execNew_of_built hne ledCount
  | badLedCount =>
    obtain ⟨ledCount, rfl, hl, hbad⟩ := h
    exact execNew_badCount hl hbad
  | nanBrightness =>
    obtain ⟨index, r, g, b, brightness, n, rfl, hl, h0, hn, hnan⟩ := h
    exact execSetPixel_nan r g b hl h0 hn hnan
  | notModelled | reservedOp => exact h.elim

theorem refused_iff {i : Instr} {s : State} {r : Refusal} (hc : i.isCommand = true) :
    exec i s = .refused r ↔ RefusalCondition i s r :=
  ⟨refusalCondition_of_refused hc, refused_of_refusalCondition hc⟩

/-- Settles O42: each reason by its condition, and the conditions of the other two never hold. -/
theorem refusedExactlyWhen : Obligations.RefusedExactlyWhen := by
  refine fun i s hc => ⟨refused_iff hc, refused_iff hc, refused_iff hc, refused_iff hc, fun r hr => ?_⟩
  have hcond := refusalCondition_of_refused hc hr
  cases r with
  | notActive => exact .inl rfl
  | alreadyBuiltOrFailed => exact .inr (.inl rfl)
  | badLedCount => exact .inr (.inr (.inl rfl))
  | nanBrightness => exact .inr (.inr (.inr rfl))
  | notModelled | reservedOp => exact hcond.elim

/-! ### Faults -/

/-- An instruction below the commands always ends in a next state. -/
theorem exec_micro_next {i : Instr} (hc : i.isCommand = false) (s : State) : ∃ t, exec i s = .next t := by
  rw [exec_eq_drive hc]
  cases drive (microWrites i) s with
  | done t => exact ⟨_, rfl⟩
  | raised t site => exact ⟨_, rfl⟩

/-- A command ends in a next state or is refused. -/
theorem exec_command_next_or_refused {i : Instr} (hc : i.isCommand = true) (s : State) :
    (∃ t, exec i s = .next t) ∨ ∃ r, exec i s = .refused r := by
  cases i with
  | new ledCount =>
    obtain ⟨-, h⟩ | ⟨-, -, h⟩ | ⟨-, -, -, -, h⟩ | ⟨-, -, -, -, ⟨-, h⟩ | ⟨p, line, level, -, -, -, h⟩⟩ :=
      execNew_cases s ledCount
    · exact .inr ⟨_, h⟩
    · exact .inr ⟨_, h⟩
    all_goals exact .inl ⟨_, h⟩
  | setPixel index r g b brightness =>
    obtain ⟨-, h⟩ | ⟨n, -, -, h⟩ | ⟨n, -, -, -, -, h⟩ | ⟨n, level, -, -, -, -, h⟩ :=
      execSetPixel_cases s index r g b brightness
    · exact .inr ⟨_, h⟩
    · exact .inl ⟨_, h⟩
    · exact .inr ⟨_, h⟩
    · exact .inl ⟨_, h⟩
  | clear => exact (execClear_cases s).symm.imp (fun h => ⟨_, h.2⟩) (fun h => ⟨_, h.2⟩)
  | showBuffer =>
    obtain ⟨-, h⟩ | ⟨-, -, h⟩ | ⟨-, p, line, level, -, -, -, h⟩ := execShow_cases s
    · exact .inr ⟨_, h⟩
    all_goals exact .inl ⟨_, h⟩
  | dispose =>
    obtain ⟨-, h⟩ | ⟨-, -, h⟩ | ⟨-, p, line, level, -, -, -, h⟩ := execDispose_cases s
    · exact .inr ⟨_, h⟩
    all_goals exact .inl ⟨_, h⟩
  | startFrame | led | endFrame | sendByte | sendBit | lineWrite => cases hc

theorem exec_ne_fault (i : Instr) (s : State) (f : Fault) : exec i s ≠ .fault f := by
  intro h
  cases hc : i.isCommand
  · obtain ⟨t, ht⟩ := exec_micro_next hc s
    rw [ht] at h
    cases h
  · obtain ⟨t, ht⟩ | ⟨r, hr⟩ := exec_command_next_or_refused hc s
    · rw [ht] at h
      cases h
    · rw [hr] at h
      cases h

/-- Settles O43: every case of every instruction is a next state or a refusal of a command. -/
theorem noInstructionFaults : Obligations.NoInstructionFaults :=
  ⟨exec_ne_fault, fun _ s hc => exec_micro_next hc s⟩

/-! ### Statuses -/

/-- Settles O44: the status in each case of each command. -/
theorem statusesByCommand : Obligations.StatusesByCommand := by
  refine fun s t => ⟨fun index r g b brightness hexec => ?setPixel, fun hexec => ?clear, fun hexec => ?showBuffer,
    fun ledCount hexec => ?new, fun hexec => ?dispose⟩
  case setPixel =>
    have hexec : execSetPixel index r g b brightness s = .next t := hexec
    obtain ⟨-, h⟩ | ⟨n, -, -, h⟩ | ⟨n, -, -, -, -, h⟩ | ⟨n, level, -, -, -, -, h⟩ :=
      execSetPixel_cases s index r g b brightness
    all_goals
      rw [h] at hexec
      cases hexec
    · exact .inr rfl
    · exact .inl rfl
  case clear =>
    have hexec : execClear s = .next t := hexec
    obtain ⟨-, h⟩ | ⟨-, h⟩ := execClear_cases s
    all_goals
      rw [h] at hexec
      cases hexec
    rfl
  case showBuffer =>
    have hexec : execShow s = .next t := hexec
    obtain ⟨-, h⟩ | ⟨-, -, h⟩ | ⟨-, p, line, level, -, -, -, h⟩ := execShow_cases s
    all_goals
      rw [h] at hexec
      cases hexec
    · exact .inl rfl
    · exact .inr ⟨line, level, rfl⟩
  case new =>
    have hexec : execNew ledCount s = .next t := hexec
    obtain ⟨-, h⟩ | ⟨-, -, h⟩ | ⟨-, -, -, -, h⟩ | ⟨-, -, -, -, ⟨-, h⟩ | ⟨p, line, level, -, -, -, h⟩⟩ :=
      execNew_cases s ledCount
    all_goals
      rw [h] at hexec
      cases hexec
    · exact .inr (.inl rfl)
    · exact .inl rfl
    · exact .inr (.inr ⟨line, level, rfl⟩)
  case dispose =>
    have hexec : execDispose s = .next t := hexec
    obtain ⟨-, h⟩ | ⟨-, -, h⟩ | ⟨-, p, line, level, -, -, -, h⟩ := execDispose_cases s
    all_goals
      rw [h] at hexec
      cases hexec
    · cases hrelease : s.releaseOk.answerAt 0
      · exact .inr (.inl rfl)
      · exact .inl rfl
    · exact .inr (.inr ⟨line, level, rfl⟩)

/-- No status has code 3 (R150). -/
theorem Status.code_ne_three (status : Status) : status.code ≠ 3 := by
  cases status with
  | ok => exact (by decide : (0 : BitVec 2) ≠ 3)
  | indexOutOfRange index => exact (by decide : (1 : BitVec 2) ≠ 3)
  | lineAccessFailure site => exact (by decide : (2 : BitVec 2) ≠ 3)

/-- Settles O45: the code of each status. -/
theorem statusCodes : Obligations.StatusCodes := by
  refine ⟨rfl, fun _ => rfl, fun _ => rfl, fun s hcode => ?_⟩
  obtain ⟨status, -, hthree⟩ := Option.map_eq_some_iff.1 hcode
  exact Status.code_ne_three status hthree

end Sys2Proof.Machine
end

section
/-! The two invariants of the block (10_state.md R12, R14, R15, R18; 20_memory.md R30): each update of the state keeps
them, and every step is one of those updates. -/

namespace Sys2Proof.Machine

/-! ### The sequencer stays in the stream -/

theorem State.txInRange_of_idle {s : State} (h : s.tx = .idle) : s.txInRange := by
  intro p hp
  rw [h] at hp
  cases hp

/-- A successful write leaves the sequencer IDLE or within the stream of the controller that exists. -/
theorem Tx.advance_inRange {running : Prop} {total : Nat} {t : Tx} (h : ∀ p, t = .pos p → running ∧ p.k < total) :
    ∀ q, t.advance total = .pos q → running ∧ q.k < total := by
  intro q hq
  cases t with
  | idle => cases hq
  | pos p =>
    obtain ⟨hrunning, hk⟩ := h p rfl
    have hq : p.next total = .pos q := hq
    obtain ⟨-, r, hr, hrk, -⟩ | ⟨-, -, r, hr, hrk, -⟩ | ⟨-, -, hmore, r, hr, hrk, -⟩ | ⟨-, -, -, hr⟩ :=
      TxPos.next_cases p total
    case inr.inr.inr =>
      rw [hr] at hq
      cases hq
    all_goals
      obtain rfl := Tx.pos.inj (hr.symm.trans hq)
      exact ⟨hrunning, by omega⟩

theorem Tx.advanceBy_inRange {running : Prop} {total : Nat} {t : Tx} (writes : Nat)
    (h : ∀ p, t = .pos p → running ∧ p.k < total) :
    ∀ q, Tx.advanceBy total writes t = .pos q → running ∧ q.k < total := by
  induction writes generalizing t with
  | zero => exact h
  | succ writes ih => exact ih (Tx.advance_inRange h)

theorem State.txInRange_wrote {s : State} (h : s.txInRange) (writes : List (Line × Bool)) :
    (s.wrote writes).txInRange := Tx.advanceBy_inRange writes.length h

/-! ### The invariant of the block, by update -/

/-- The invariant reads LIFE, the buffer, N_MAX and TX only. -/
theorem State.Inv.congr {s t : State} (h : s.Inv) (hl : t.life = s.life) (hm : t.mem = s.mem)
    (hcfg : t.cfg = s.cfg) (htx : t.txInRange) : t.Inv where
  memCanonical := by rw [hm]; exact h.memCanonical
  memInside := by rw [hm, State.count_congr hl]; exact h.memInside
  brightnessRange i := by rw [State.pixel_congr hm]; exact h.brightnessRange i
  countAdmitted := by rw [State.count_congr hl, hcfg]; exact h.countAdmitted
  txRange := htx

/-- A state with the zeroed buffer of an admitted count and TX IDLE has the invariant. -/
theorem State.Inv.of_zeroed {t : State} (hm : t.mem = []) (hc : t.count ≤ t.cfg.nMax) (htx : t.tx = .idle) :
    t.Inv where
  memCanonical := by rw [hm]; rfl
  memInside := by rw [hm]; exact nofun
  brightnessRange i := by rw [State.pixel, hm]; exact Nat.zero_le 31
  countAdmitted := hc
  txRange := State.txInRange_of_idle htx

theorem State.Inv.wrote {s : State} (h : s.Inv) (writes : List (Line × Bool)) : (s.wrote writes).Inv :=
  h.congr rfl rfl rfl (State.txInRange_wrote h.txRange writes)

theorem State.Inv.wroteThenFailed {s : State} (h : s.Inv) (writes : List (Line × Bool)) (line : Line) (level : Bool) :
    (s.wroteThenFailed writes line level).Inv :=
  h.congr rfl rfl rfl (State.txInRange_of_idle rfl)

theorem State.Inv.showed {s : State} (h : s.Inv) (bytes : List Byte) : (s.showed bytes).Inv :=
  h.congr rfl rfl rfl (State.txInRange_of_idle rfl)

theorem State.Inv.returning {s : State} (h : s.Inv) (status : Status) : (s.returning status).Inv :=
  h.congr rfl rfl rfl h.txRange

/-- Writing an entry that exists, with a brightness within 0..31. -/
theorem State.Inv.setPixel {s : State} (h : s.Inv) {i : Nat} {p : Pixel} (hi : i < s.count)
    (hp : p.brightness5.toNat ≤ 31) : (s.setMem (s.mem.setPixel i p)).Inv where
  memCanonical := Memory.wf_setPixel h.memCanonical i p
  memInside c hc := by
    rw [State.count_setMem]
    obtain hold | hnew := Memory.mem_setPixel hc
    · exact h.memInside c hold
    · omega
  brightnessRange j := by
    rw [State.pixel, State.setMem_mem, Memory.pixel_setPixel h.memCanonical]
    split
    · exact hp
    · exact h.brightnessRange j
  countAdmitted := h.countAdmitted
  txRange := h.txRange

theorem State.Inv.zeroBuffer {s : State} (h : s.Inv) : s.zeroBuffer.Inv where
  memCanonical := Memory.wf_zeroBelow _ h.memCanonical
  memInside c hc := h.memInside c (List.mem_filter.1 hc).1
  brightnessRange i := by
    rw [State.pixel, State.zeroBuffer_mem, Memory.pixel, Memory.read_zeroBelow]
    split
    · exact Nat.zero_le 31
    · exact h.brightnessRange i
  countAdmitted := h.countAdmitted
  txRange := h.txRange

/-- Where no controller exists a well-kept buffer is empty. -/
theorem State.Inv.mem_of_unbuilt {s : State} (h : s.Inv) (hl : s.life = .unbuilt) : s.mem = [] := by
  refine List.eq_nil_iff_forall_not_mem.2 fun c hc => ?_
  have hin := h.memInside c hc
  rw [State.count, hl] at hin
  exact Nat.not_lt_zero _ hin

theorem State.Inv.released (s : State) (status : Status) : (s.release.returning status).Inv :=
  .of_zeroed rfl (Nat.zero_le _) rfl

/-- A command that answers a next state keeps the invariant of the block. -/
theorem State.Inv.exec_command {i : Instr} {s t : State} (h : s.Inv) (htx : s.tx = .idle) (hc : i.isCommand = true)
    (hexec : exec i s = .next t) : t.Inv := by
  obtain ⟨index, r, g, b, br, status, -, rfl⟩ | ⟨index, r, g, b, br, n, level, -, hl, h0, hn, hlevel, rfl⟩ |
    ⟨-, rfl⟩ | ⟨-, bytes, rfl⟩ | ⟨-, ws, line, level, status, rfl⟩ | ⟨hl, rfl⟩ | ⟨c, -, hmax, bytes, rfl⟩ |
    ⟨c, -, -, ws, line, level, site, rfl⟩ | ⟨-, bytes, status, rfl⟩ | ⟨-, ws, line, level, status, rfl⟩ :=
    command_shape hc hexec
  · exact h.returning status
  · have hi : index.toNat < s.count := by rw [State.count_of_active hl]; omega
    exact (h.setPixel hi hlevel).returning .ok
  · exact h.zeroBuffer.returning .ok
  · exact (h.showed bytes).returning .ok
  · exact (h.wroteThenFailed ws line level).returning status
  · exact .of_zeroed (h.mem_of_unbuilt hl) (Nat.zero_le _) htx
  · exact .of_zeroed rfl hmax rfl
  · exact .of_zeroed rfl (Nat.zero_le _) rfl
  · exact .released _ status
  · exact .released _ status

/-- An instruction below the commands keeps the invariant of the block. -/
theorem State.Inv.exec_micro {i : Instr} {s t : State} (h : s.Inv) (hc : i.isCommand = false)
    (hexec : exec i s = .next t) : t.Inv := by
  obtain rfl | ⟨ws, line, level, rfl⟩ := exec_micro_cases hc hexec
  · exact h.wrote _
  · exact (h.wroteThenFailed ws line level).returning _

/-- The next write of a running SHOW keeps the invariant of the block. -/
theorem State.Inv.resume {p : TxPos} {s t : State} (h : s.Inv) (hres : resume p s = .next t) : t.Inv := by
  obtain ⟨-, hr⟩ | ⟨byte, -, -, hr⟩ | ⟨byte, -, -, hr⟩ := resume_cases p s
  all_goals
    rw [hr] at hres
    cases hres
  · split
    · exact (h.wrote _).returning .ok
    · exact h.wrote _
  · exact (h.wroteThenFailed [] _ _).returning _

/-- Settles O51: a step is a write of a running SHOW, a frame, a command or the idle step, and each keeps the
invariant. -/
theorem everyStepKeepsTheBlockWell : Obligations.EveryStepKeepsTheBlockWell := by
  intro s t h hstep
  obtain ⟨p, -, hres⟩ | ⟨w, i, -, -, hd, hexec⟩ | ⟨w, rest, i, htx, -, -, hd, hexec⟩ | ⟨-, rfl⟩ := step_cases hstep
  · exact h.resume hres
  · have htaken : State.Inv { s with frameSlot := none } := h.congr rfl rfl rfl h.txRange
    exact htaken.exec_micro (decodeFrame_micro hd) hexec
  · have htaken : State.Inv { s with hostCommands := rest } := h.congr rfl rfl rfl h.txRange
    exact htaken.exec_command htx (decodeCommand_cmd hd) hexec
  · exact h

/-! ### Between commands -/

/-- A command that answers a next state keeps the invariant between commands. -/
theorem State.BetweenCommands.exec_command {i : Instr} {s t : State} (h : s.BetweenCommands)
    (hc : i.isCommand = true) (hexec : exec i s = .next t) : t.BetweenCommands := by
  have notUnbuilt : ∀ {u : State}, s.isActive = true → u.life = s.life →
      u.life = .unbuilt → u.lvlData = .unknown ∧ u.lvlClock = .unknown := by
    intro u ha hu hl
    rw [State.isActive, ← hu, hl] at ha
    cases ha
  obtain ⟨index, r, g, b, br, status, -, rfl⟩ | ⟨index, r, g, b, br, n, level, -, -, -, -, -, rfl⟩ |
    ⟨-, rfl⟩ | ⟨ha, bytes, rfl⟩ | ⟨ha, ws, line, level, status, rfl⟩ | ⟨-, rfl⟩ | ⟨c, -, -, bytes, rfl⟩ |
    ⟨c, -, -, ws, line, level, site, rfl⟩ | ⟨-, bytes, status, rfl⟩ | ⟨-, ws, line, level, status, rfl⟩ :=
    command_shape hc hexec
  · exact ⟨h.noFrame, h.txIdle, h.levelsUnbuilt⟩
  · exact ⟨h.noFrame, h.txIdle, h.levelsUnbuilt⟩
  · exact ⟨h.noFrame, h.txIdle, h.levelsUnbuilt⟩
  · exact ⟨h.noFrame, rfl, notUnbuilt ha rfl⟩
  · exact ⟨h.noFrame, rfl, notUnbuilt ha rfl⟩
  · exact ⟨h.noFrame, h.txIdle, nofun⟩
  · exact ⟨h.noFrame, rfl, nofun⟩
  · exact ⟨h.noFrame, rfl, nofun⟩
  · exact ⟨h.noFrame, rfl, fun _ => ⟨rfl, rfl⟩⟩
  · exact ⟨h.noFrame, rfl, fun _ => ⟨rfl, rfl⟩⟩

/-- Settles O52: between commands a step is a command or idle. -/
theorem hostCommandsEndBetweenCommands : Obligations.HostCommandsEndBetweenCommands := by
  intro s t h hstep
  obtain ⟨p, htx, -⟩ | ⟨w, i, -, hf, -⟩ | ⟨w, rest, i, -, -, -, hd, hexec⟩ | ⟨-, rfl⟩ := step_cases hstep
  · simp [h.txIdle] at htx
  · simp [h.noFrame] at hf
  · have htaken : State.BetweenCommands { s with hostCommands := rest } := ⟨h.noFrame, h.txIdle, h.levelsUnbuilt⟩
    exact htaken.exec_command (decodeCommand_cmd hd) hexec
  · exact h

/-- Settles O53: no controller, no buffer, TX IDLE and both levels unknown. -/
theorem powerOnIsWell : Obligations.PowerOnIsWell :=
  ⟨.of_zeroed rfl (Nat.zero_le _) rfl, rfl, rfl, fun _ => ⟨rfl, rfl⟩⟩

/-- Settles O47: the fields of the state at power-on. -/
theorem powerOnState : Obligations.PowerOnState := ⟨rfl, rfl, rfl, rfl, rfl, rfl, rfl⟩

end Sys2Proof.Machine
end

section
/-! What a step runs (20_memory.md R36), and what every step keeps: W only grows (10_state.md R16) and the parameters
stay (00_scope.md R5). -/

namespace Sys2Proof.Machine

/-! ### What a step runs -/

theorem step_command {s : State} {w : CommandWord} {rest : List CommandWord} {i : Instr} (htx : s.tx = .idle)
    (hf : s.frameSlot = none) (hw : s.hostCommands = w :: rest) (hd : decodeCommand w = .ok i) :
    step s = exec i { s with hostCommands := rest } := by
  simp only [step, fetch, htx, hf, hw, fetchCommand, hd]

/-- A word that decodes to no command is refused (R61). -/
theorem step_reserved {s : State} {w : CommandWord} {rest : List CommandWord} {e : DecodeError} (htx : s.tx = .idle)
    (hf : s.frameSlot = none) (hw : s.hostCommands = w :: rest) (hd : decodeCommand w = .error e) :
    step s = .refused (.reservedOp (opField w)) := by
  simp only [step, fetch, htx, hf, hw, fetchCommand, hd]

theorem step_frame {s : State} {w : FrameWord} {i : Instr} (htx : s.tx = .idle) (hf : s.frameSlot = some w)
    (hd : decodeFrame w = .ok i) : step s = exec i { s with frameSlot := none } := by
  simp only [step, fetch, htx, hf, fetchFrame, hd]

/-- A word in the slot that is no frame stops the machine (log 22). -/
theorem step_notAFrame {s : State} {w : FrameWord} {e : DecodeError} (htx : s.tx = .idle) (hf : s.frameSlot = some w)
    (hd : decodeFrame w = .error e) : step s = .fault (.notAFrame w) := by
  simp only [step, fetch, htx, hf, fetchFrame, hd]

theorem step_idle {s : State} (htx : s.tx = .idle) (hf : s.frameSlot = none) (hw : s.hostCommands = []) :
    step s = .next s := by
  simp only [step, fetch, htx, hf, hw]

theorem decode_of_tableWord_command {w : Nat} {i : Instr} (h : decodeTableWord 128 w = some i) :
    decodeCommand (BitVec.ofNat 128 w) = .ok i := by
  have h : (decodeCommand (BitVec.ofNat 128 w)).toOption = some i := h
  cases hd : decodeCommand (BitVec.ofNat 128 w) with
  | error e => simp [hd, Except.toOption] at h
  | ok j => simpa [hd, Except.toOption] using h

theorem decode_of_tableWord_frame {w : Nat} {i : Instr} (h : decodeTableWord 32 w = some i) :
    decodeFrame (BitVec.ofNat 32 w) = .ok i := by
  have h : (decodeFrame (BitVec.ofNat 32 w)).toOption = some i := h
  cases hd : decodeFrame (BitVec.ofNat 32 w) with
  | error e => simp [hd, Except.toOption] at h
  | ok j => simpa [hd, Except.toOption] using h

/-- Settles O48: one equation of the step per place a word can wait, and the placed words wait there. -/
theorem stepRunsTheDecodedInstruction : Obligations.StepRunsTheDecodedInstruction := by
  intro s
  refine ⟨fun htx hf => ⟨fun w rest i hw hd => step_command htx hf hw hd, step_idle htx hf⟩,
    fun w i htx hf hd => step_frame htx hf hd, fun p htx => step_running htx, fun w i h => ?command,
    fun w i h => ?frame⟩
  case command =>
    exact ⟨_, step_command (s := s.withCommand (BitVec.ofNat 128 w)) rfl rfl rfl (decode_of_tableWord_command h), rfl⟩
  case frame =>
    exact ⟨_, step_frame (s := s.withFrame (BitVec.ofNat 32 w)) rfl rfl (decode_of_tableWord_frame h), rfl⟩

/-! ### What every step keeps -/

/-- What every step keeps: the parameters, and the events of W so far. -/
structure Extends (s t : State) : Prop where
  cfg : t.cfg = s.cfg
  w : ∃ more, t.w = s.w ++ more

theorem Extends.refl (s : State) : Extends s s := ⟨rfl, [], (List.append_nil _).symm⟩

/-- Nothing but the cfg and W matters for `Extends`. -/
theorem Extends.of_same {s t : State} (hcfg : t.cfg = s.cfg) (hw : t.w = s.w) : Extends s t :=
  ⟨hcfg, [], by rw [hw, List.append_nil]⟩

theorem Extends.wroteThenFailed (s : State) (writes : List (Line × Bool)) (line : Line) (level : Bool) :
    Extends s (s.wroteThenFailed writes line level) := ⟨rfl, _, List.append_assoc _ _ _⟩

theorem exec_command_extends {i : Instr} {s t : State} (hc : i.isCommand = true) (h : exec i s = .next t) :
    Extends s t := by
  obtain ⟨index, r, g, b, br, status, -, rfl⟩ | ⟨index, r, g, b, br, n, level, -, -, -, -, -, rfl⟩ |
    ⟨-, rfl⟩ | ⟨-, bytes, rfl⟩ | ⟨-, ws, line, level, status, rfl⟩ | ⟨-, rfl⟩ | ⟨c, -, -, bytes, rfl⟩ |
    ⟨c, -, -, ws, line, level, site, rfl⟩ | ⟨-, bytes, status, rfl⟩ | ⟨-, ws, line, level, status, rfl⟩ :=
    command_shape hc h
  · exact .of_same rfl rfl
  · exact .of_same rfl rfl
  · exact .of_same rfl rfl
  · exact ⟨rfl, _, rfl⟩
  · exact ⟨rfl, (Extends.wroteThenFailed s ws line level).w⟩
  · exact .of_same rfl rfl
  · exact ⟨rfl, _, rfl⟩
  · exact ⟨rfl, (Extends.wroteThenFailed (s.openedWith c.toNat) ws line level).w⟩
  · exact ⟨rfl, _, rfl⟩
  · exact ⟨rfl, (Extends.wroteThenFailed s.zeroBuffer ws line level).w⟩

theorem exec_micro_extends {i : Instr} {s t : State} (hc : i.isCommand = false) (h : exec i s = .next t) :
    Extends s t := by
  obtain rfl | ⟨ws, line, level, rfl⟩ := exec_micro_cases hc h
  · exact ⟨rfl, _, rfl⟩
  · exact ⟨rfl, (Extends.wroteThenFailed s ws line level).w⟩

theorem resume_extends {p : TxPos} {s t : State} (h : resume p s = .next t) : Extends s t := by
  obtain ⟨-, hr⟩ | ⟨byte, -, -, hr⟩ | ⟨byte, -, -, hr⟩ := resume_cases p s
  all_goals
    rw [hr] at h
    cases h
  · split
    · exact ⟨rfl, _, rfl⟩
    · exact ⟨rfl, _, rfl⟩
  · exact ⟨rfl, (Extends.wroteThenFailed s [] _ _).w⟩

theorem step_extends {s t : State} (h : step s = .next t) : Extends s t := by
  obtain ⟨p, -, hres⟩ | ⟨w, i, -, -, hd, hexec⟩ | ⟨w, rest, i, -, -, -, hd, hexec⟩ | ⟨-, rfl⟩ := step_cases h
  · exact resume_extends hres
  · obtain ⟨hcfg, hw⟩ := exec_micro_extends (decodeFrame_micro hd) hexec
    exact ⟨hcfg, hw⟩
  · obtain ⟨hcfg, hw⟩ := exec_command_extends (decodeCommand_cmd hd) hexec
    exact ⟨hcfg, hw⟩
  · exact .refl t

/-- Settles O49: every step extends W. -/
theorem traceOnlyGrows : Obligations.TraceOnlyGrows := fun _ _ h => (step_extends h).w

end Sys2Proof.Machine
end

section
/-! What no step reads: the events already in W, the last status and the pins. One simulation says so for all three: a
relation between states that differ in nothing else is kept by every step. -/

namespace Sys2Proof.Machine

/-- `u` with the W, the status and the parameters of `s`. -/
def State.hiding (u s : State) : State := { u with w := s.w, reply := s.reply, cfg := s.cfg }

/-- More events in W. -/
def State.logged (s : State) (events : List Event) : State := { s with w := s.w ++ events }

/-- A relation between states that differ at most in what no step reads, whatever a step does: it survives any change of
the other fields, events that join W, and a status that is returned. -/
structure Hides (R : State → State → Prop) : Prop where
  reads : ∀ {s s'}, R s s' → s' =
    { s with
      w := s'.w
      reply := s'.reply
      cfg := { s.cfg with pinData := s'.cfg.pinData, pinClock := s'.cfg.pinClock } }
  changes : ∀ {s s'}, R s s' → ∀ u : State, R (u.hiding s) (u.hiding s')
  logs : ∀ {s s'}, R s s' → ∀ events, R (s.logged events) (s'.logged events)
  returns : ∀ {s s'}, R s s' → ∀ status, R (s.returning status) (s'.returning status)

/-- Two outcomes of the same kind, with related next states or the same reason. -/
inductive OutcomeRel (R : State → State → Prop) :
    Host.Outcome State Fault Refusal → Host.Outcome State Fault Refusal → Prop where
  | next {t t' : State} (h : R t t') : OutcomeRel R (.next t) (.next t')
  | fault (f : Fault) : OutcomeRel R (.fault f) (.fault f)
  | refused (r : Refusal) : OutcomeRel R (.refused r) (.refused r)

theorem OutcomeRel.of_next {R : State → State → Prop} {o o' : Host.Outcome State Fault Refusal} {t t' : State}
    (ho : o = .next t) (ho' : o' = .next t') (h : R t t') : OutcomeRel R o o' := by
  rw [ho, ho']
  exact .next h

theorem OutcomeRel.of_refused {R : State → State → Prop} {o o' : Host.Outcome State Fault Refusal} {r : Refusal}
    (ho : o = .refused r) (ho' : o' = .refused r) : OutcomeRel R o o' := by
  rw [ho, ho']
  exact .refused r

theorem OutcomeRel.of_fault {R : State → State → Prop} {o o' : Host.Outcome State Fault Refusal} {f : Fault}
    (ho : o = .fault f) (ho' : o' = .fault f) : OutcomeRel R o o' := by
  rw [ho, ho']
  exact .fault f

/-! ### The simulation -/

section
variable {R : State → State → Prop} {s s' : State}

/-- Related states are one state with two histories, two statuses and two pairs of pins. -/
theorem Hides.exists_hidden (hR : Hides R) (h : R s s') : ∃ w reply pinData pinClock, s' =
    { s with w := w, reply := reply, cfg := { s.cfg with pinData := pinData, pinClock := pinClock } } :=
  ⟨_, _, _, _, hR.reads h⟩

theorem Hides.life (hR : Hides R) (h : R s s') : s'.life = s.life := by
  obtain ⟨_, _, _, _, rfl⟩ := hR.exists_hidden h
  rfl

theorem Hides.mem (hR : Hides R) (h : R s s') : s'.mem = s.mem := by
  obtain ⟨_, _, _, _, rfl⟩ := hR.exists_hidden h
  rfl

theorem Hides.tx (hR : Hides R) (h : R s s') : s'.tx = s.tx := by
  obtain ⟨_, _, _, _, rfl⟩ := hR.exists_hidden h
  rfl

theorem Hides.lineOk (hR : Hides R) (h : R s s') : s'.lineOk = s.lineOk := by
  obtain ⟨_, _, _, _, rfl⟩ := hR.exists_hidden h
  rfl

theorem Hides.openOk (hR : Hides R) (h : R s s') : s'.openOk = s.openOk := by
  obtain ⟨_, _, _, _, rfl⟩ := hR.exists_hidden h
  rfl

theorem Hides.releaseOk (hR : Hides R) (h : R s s') : s'.releaseOk = s.releaseOk := by
  obtain ⟨_, _, _, _, rfl⟩ := hR.exists_hidden h
  rfl

theorem Hides.hostCommands (hR : Hides R) (h : R s s') : s'.hostCommands = s.hostCommands := by
  obtain ⟨_, _, _, _, rfl⟩ := hR.exists_hidden h
  rfl

theorem Hides.frameSlot (hR : Hides R) (h : R s s') : s'.frameSlot = s.frameSlot := by
  obtain ⟨_, _, _, _, rfl⟩ := hR.exists_hidden h
  rfl

theorem Hides.nMax (hR : Hides R) (h : R s s') : s'.cfg.nMax = s.cfg.nMax := by
  obtain ⟨_, _, _, _, rfl⟩ := hR.exists_hidden h
  rfl

theorem Hides.quantiser (hR : Hides R) (h : R s s') : s'.cfg.quantiser = s.cfg.quantiser := by
  obtain ⟨_, _, _, _, rfl⟩ := hR.exists_hidden h
  rfl

theorem Hides.wrote (hR : Hides R) (h : R s s') (writes : List (Line × Bool)) :
    R (s.wrote writes) (s'.wrote writes) := by
  have hlogged := hR.logs h (succeeded writes)
  obtain ⟨w, reply, a, b, rfl⟩ := hR.exists_hidden h
  exact hR.changes hlogged (s.wrote writes)

theorem Hides.wroteThenFailed (hR : Hides R) (h : R s s') (writes : List (Line × Bool)) (line : Line) (level : Bool) :
    R (s.wroteThenFailed writes line level) (s'.wroteThenFailed writes line level) := by
  have hlogged := hR.logs (hR.logs h (succeeded writes)) [{ line := line, level := level, ok := false }]
  obtain ⟨w, reply, a, b, rfl⟩ := hR.exists_hidden h
  exact hR.changes hlogged (s.wroteThenFailed writes line level)

theorem Hides.showed (hR : Hides R) (h : R s s') (bytes : List Byte) : R (s.showed bytes) (s'.showed bytes) := by
  have hlogged := hR.logs h (succeeded (streamWrites bytes))
  obtain ⟨w, reply, a, b, rfl⟩ := hR.exists_hidden h
  exact hR.changes hlogged (s.showed bytes)

theorem Hides.failNew (hR : Hides R) (h : R s s') (site : FailSite) : R (s.failNew site) (s'.failNew site) := by
  have hfailed := hR.changes h { s with life := .failed }
  obtain ⟨w, reply, a, b, rfl⟩ := hR.exists_hidden h
  exact hR.returns hfailed (.lineAccessFailure site)

theorem Hides.openedWith (hR : Hides R) (h : R s s') (n : Nat) : R (s.openedWith n) (s'.openedWith n) := by
  have hopened := hR.changes h (s.openedWith n)
  obtain ⟨w, reply, a, b, rfl⟩ := hR.exists_hidden h
  exact hopened

theorem Hides.zeroBuffer (hR : Hides R) (h : R s s') : R s.zeroBuffer s'.zeroBuffer := by
  have hzeroed := hR.changes h s.zeroBuffer
  obtain ⟨w, reply, a, b, rfl⟩ := hR.exists_hidden h
  exact hzeroed

theorem Hides.release (hR : Hides R) (h : R s s') : R s.release s'.release := by
  have hreleased := hR.changes h s.release
  obtain ⟨w, reply, a, b, rfl⟩ := hR.exists_hidden h
  exact hreleased

theorem Hides.setMem (hR : Hides R) (h : R s s') (m : Memory) : R (s.setMem m) (s'.setMem m) := by
  have hset := hR.changes h (s.setMem m)
  obtain ⟨w, reply, a, b, rfl⟩ := hR.exists_hidden h
  exact hset

/-- An instruction below the commands makes the same writes from related states. -/
theorem Hides.exec_micro (hR : Hides R) (h : R s s') {i : Instr} (hc : i.isCommand = false) :
    OutcomeRel R (exec i s) (exec i s') := by
  have hsame : s'.lineOk = s.lineOk := hR.lineOk h
  rw [exec_eq_drive hc, exec_eq_drive hc]
  obtain hg | ⟨p, hp, hg, hf⟩ := Oracle.grants_or_first_failure s.lineOk (microWrites i).length
  · rw [drive_grants hg, drive_grants (by rwa [hsame])]
    exact .next (hR.wrote h _)
  · have hx := List.getElem?_eq_getElem hp
    rw [drive_first_failure hx hg hf, drive_first_failure hx (by rwa [hsame]) (by rwa [hsame])]
    exact .next (hR.returns (hR.wroteThenFailed h _ _ _) _)

theorem Hides.execSetPixel (hR : Hides R) (h : R s s') (index : Int) (r g b : Byte) (brightness : Binary64) :
    OutcomeRel R (execSetPixel index r g b brightness s) (execSetPixel index r g b brightness s') := by
  have hlife : s'.life = s.life := hR.life h
  have hmem : s'.mem = s.mem := hR.mem h
  have hq : s'.cfg.quantiser = s.cfg.quantiser := hR.quantiser h
  obtain ⟨ha, hexec⟩ | ⟨n, hl, hbad, hexec⟩ | ⟨n, hl, h0, hn, hnan, hexec⟩ | ⟨n, level, hl, h0, hn, hlevel, hexec⟩ :=
    execSetPixel_cases s index r g b brightness
  · exact .of_refused hexec (execSetPixel_of_not_active (by rwa [State.isActive, hlife]) index r g b brightness)
  · exact .of_next hexec (execSetPixel_badIndex r g b brightness (hlife.trans hl) hbad) (hR.returns h _)
  · exact .of_refused hexec (execSetPixel_nan r g b (hlife.trans hl) h0 hn hnan)
  · refine .of_next hexec (execSetPixel_stores r g b (hlife.trans hl) h0 hn (by rwa [hq])) (hR.returns ?_ _)
    rw [hmem]
    exact hR.setMem h _

theorem Hides.execClear (hR : Hides R) (h : R s s') : OutcomeRel R (execClear s) (execClear s') := by
  have hlife : s'.life = s.life := hR.life h
  obtain ⟨ha, hexec⟩ | ⟨ha, hexec⟩ := execClear_cases s
  · exact .of_refused hexec (execClear_of_not_active (by rwa [State.isActive, hlife]))
  · obtain ⟨n, hl⟩ := State.life_of_active ha
    exact .of_next hexec (execClear_of_active (hlife.trans hl)) (hR.returns (hR.zeroBuffer h) _)

theorem Hides.execShow (hR : Hides R) (h : R s s') : OutcomeRel R (execShow s) (execShow s') := by
  have hlife : s'.life = s.life := hR.life h
  have hok : s'.lineOk = s.lineOk := hR.lineOk h
  have hpixels : s'.pixels = s.pixels := State.pixels_congr hlife (hR.mem h)
  have hplan : s'.showPlan = s.showPlan := by rw [State.showPlan, hpixels, State.showPlan]
  obtain ⟨ha, hexec⟩ | ⟨ha, hg, hexec⟩ | ⟨ha, p, line, level, hx, hg, hf, hexec⟩ := execShow_cases s
  · exact .of_refused hexec (execShow_of_not_active (by rwa [State.isActive, hlife]))
  · obtain ⟨n, hl⟩ := State.life_of_active ha
    rw [State.count_of_active hl] at hg
    refine .of_next hexec (execShow_grants (hlife.trans hl) (by rwa [hok])) (hR.returns ?_ _)
    rw [hpixels]
    exact hR.showed h _
  · obtain ⟨n, hl⟩ := State.life_of_active ha
    refine .of_next hexec (execShow_first_failure (hlife.trans hl) (by rwa [hplan]) (by rwa [hok]) (by rwa [hok]))
      (hR.returns ?_ _)
    rw [hplan]
    exact hR.wroteThenFailed h _ _ _

theorem Hides.execNew (hR : Hides R) (h : R s s') (ledCount : Int) :
    OutcomeRel R (execNew ledCount s) (execNew ledCount s') := by
  have hlife : s'.life = s.life := hR.life h
  have hok : s'.lineOk = s.lineOk := hR.lineOk h
  have hopen : s'.openOk = s.openOk := hR.openOk h
  have hmax : s'.cfg.nMax = s.cfg.nMax := hR.nMax h
  obtain ⟨hne, hexec⟩ | ⟨hl, hbad, hexec⟩ | ⟨hl, h0, hn, ho, hexec⟩ |
    ⟨hl, h0, hn, ho, ⟨hg, hexec⟩ | ⟨p, line, level, hx, hg, hf, hexec⟩⟩ := execNew_cases s ledCount
  · exact .of_refused hexec (execNew_of_built (by rwa [hlife]) ledCount)
  · exact .of_refused hexec (execNew_badCount (hlife.trans hl) (by rwa [hmax]))
  · refine .of_next hexec (execNew_open_fails (hlife.trans hl) h0 (by rwa [hmax]) (by rwa [hopen])) ?_
    have hasked := hR.changes h { s with openOk := s.openOk.skip 1 }
    obtain ⟨w, reply, a, b, rfl⟩ := hR.exists_hidden h
    exact hR.failNew hasked _
  · rw [State.openedWith_stream] at hexec
    exact .of_next hexec
      (execNew_success (hlife.trans hl) h0 (by rwa [hmax]) (by rwa [hopen]) (by rwa [hok]))
      (hR.returns (hR.showed (hR.openedWith h _) _) _)
  · rw [State.openedWith_showPlan] at hx hexec
    refine .of_next hexec (execNew_first_failure (hlife.trans hl) h0 (by rwa [hmax]) (by rwa [hopen])
      (by rwa [State.openedWith_showPlan]) (by rwa [hok]) (by rwa [hok])) ?_
    rw [State.openedWith_showPlan]
    exact hR.failNew (hR.wroteThenFailed (hR.openedWith h _) _ _ _) _

theorem Hides.execDispose (hR : Hides R) (h : R s s') : OutcomeRel R (execDispose s) (execDispose s') := by
  have hlife : s'.life = s.life := hR.life h
  have hok : s'.lineOk = s.lineOk := hR.lineOk h
  have hrelease : s'.releaseOk = s.releaseOk := hR.releaseOk h
  cases ha : s.isActive
  · exact .of_refused (execDispose_of_not_active ha) (execDispose_of_not_active (by rwa [State.isActive, hlife]))
  · obtain ⟨n, hl⟩ := State.life_of_active ha
    have hl' := hlife.trans hl
    obtain hg | ⟨p, hp, hg, hf⟩ := Oracle.grants_or_first_failure s.lineOk (showWrites n)
    · refine .of_next (execDispose_grants hl hg) (execDispose_grants hl' (by rwa [hok])) ?_
      rw [hrelease]
      exact hR.returns (hR.release (hR.showed (hR.zeroBuffer h) _)) _
    · have hlt : p < (streamWrites (allOffStream n)).length := by
        rwa [streamWrites_length, allOffStream_length]
      have hx := List.getElem?_eq_getElem hlt
      exact .of_next (execDispose_first_failure hl hx hg hf)
        (execDispose_first_failure hl' hx (by rwa [hok]) (by rwa [hok]))
        (hR.returns (hR.release (hR.wroteThenFailed (hR.zeroBuffer h) _ _ _)) _)

theorem Hides.exec (hR : Hides R) (h : R s s') (i : Instr) : OutcomeRel R (exec i s) (exec i s') := by
  cases i with
  | new ledCount => exact hR.execNew h ledCount
  | setPixel index r g b brightness => exact hR.execSetPixel h index r g b brightness
  | clear => exact hR.execClear h
  | showBuffer => exact hR.execShow h
  | dispose => exact hR.execDispose h
  | startFrame | led | endFrame | sendByte | sendBit | lineWrite => exact hR.exec_micro h rfl

theorem Hides.resume (hR : Hides R) (h : R s s') (p : TxPos) : OutcomeRel R (resume p s) (resume p s') := by
  have hbyte : s'.streamByte p.k = s.streamByte p.k := by
    rw [State.streamByte, State.streamByte, hR.life h, State.pixels_congr (hR.life h) (hR.mem h)]
  have hok : s'.lineOk = s.lineOk := hR.lineOk h
  have htx : s'.tx.advance (streamBytes s'.count) = s.tx.advance (streamBytes s.count) := by
    rw [hR.tx h, State.count_congr (hR.life h)]
  obtain ⟨hb, hres⟩ | ⟨byte, hb, ha, hres⟩ | ⟨byte, hb, ha, hres⟩ := resume_cases p s
  · exact .of_fault hres (resume_none (hbyte.trans hb))
  · refine .of_next hres (resume_ok (hbyte.trans hb) (by rwa [hok])) ?_
    rw [htx]
    split
    · exact hR.returns (hR.wrote h _) _
    · exact hR.wrote h _
  · exact .of_next hres (resume_failed (hbyte.trans hb) (by rwa [hok])) (hR.returns (hR.wroteThenFailed h _ _ _) _)

/-- Steps from related states have related outcomes. -/
theorem Hides.step (hR : Hides R) (h : R s s') : OutcomeRel R (step s) (step s') := by
  have htx : s'.tx = s.tx := hR.tx h
  have hframe : s'.frameSlot = s.frameSlot := hR.frameSlot h
  have hwords : s'.hostCommands = s.hostCommands := hR.hostCommands h
  cases ht : s.tx with
  | pos p =>
    rw [step_running ht, step_running (htx.trans ht)]
    exact hR.resume h p
  | idle =>
    cases hf : s.frameSlot with
    | some w =>
      cases hd : decodeFrame w with
      | error e => exact .of_fault (step_notAFrame ht hf hd) (step_notAFrame (htx.trans ht) (hframe.trans hf) hd)
      | ok i =>
        rw [step_frame ht hf hd, step_frame (htx.trans ht) (hframe.trans hf) hd]
        have htaken := hR.changes h { s with frameSlot := none }
        obtain ⟨w, reply, a, b, rfl⟩ := hR.exists_hidden h
        exact hR.exec htaken i
    | none =>
      cases hw : s.hostCommands with
      | nil => exact .of_next (step_idle ht hf hw) (step_idle (htx.trans ht) (hframe.trans hf) (hwords.trans hw)) h
      | cons w rest =>
        cases hd : decodeCommand w with
        | error e =>
          exact .of_refused (step_reserved ht hf hw hd)
            (step_reserved (htx.trans ht) (hframe.trans hf) (hwords.trans hw) hd)
        | ok i =>
          rw [step_command ht hf hw hd, step_command (htx.trans ht) (hframe.trans hf) (hwords.trans hw) hd]
          have htaken := hR.changes h { s with hostCommands := rest }
          obtain ⟨w, reply, a, b, rfl⟩ := hR.exists_hidden h
          exact hR.exec htaken i

end

/-! ### The last status -/

/-- States that differ at most in the last status, and there only as `old` and `new` do. -/
structure ReplyDiffers (old new : Option Status) (s s' : State) : Prop where
  rest : s' = { s with reply := s'.reply }
  reply : s'.reply = s.reply ∨ (s.reply = old ∧ s'.reply = new)

theorem hides_replyDiffers (old new : Option Status) : Hides (ReplyDiffers old new) where
  reads h := by rw [h.rest]
  changes h u := ⟨by rw [h.rest]; rfl, h.reply⟩
  logs h events := ⟨by rw [h.rest]; rfl, h.reply⟩
  returns h status := ⟨by rw [h.rest]; rfl, .inl rfl⟩

/-- Settles O46: the simulation for states that differ in the last status. -/
theorem statusIsNeverRead : Obligations.StatusIsNeverRead := by
  intro s r
  have hrel : ReplyDiffers s.reply r s { s with reply := r } := ⟨rfl, .inr ⟨rfl, rfl⟩⟩
  have hstep := (hides_replyDiffers s.reply r).step hrel
  refine ⟨fun t ht => ?next, fun f hf => ?fault, fun q hq => ?refused⟩
  case next =>
    rw [ht] at hstep
    generalize step { s with reply := r } = o at hstep
    cases hstep with
    | next h => exact ⟨_, rfl, by rw [h.rest], h.reply⟩
  case fault =>
    rw [hf] at hstep
    generalize step { s with reply := r } = o at hstep
    cases hstep
    rfl
  case refused =>
    rw [hq] at hstep
    generalize step { s with reply := r } = o at hstep
    cases hstep
    rfl

/-! ### The pins -/

/-- The second state is the first with these pins. -/
def PinsDiffer (pinData pinClock : Nat) (s s' : State) : Prop :=
  s' = { s with cfg := { s.cfg with pinData := pinData, pinClock := pinClock } }

theorem hides_pinsDiffer (pinData pinClock : Nat) : Hides (PinsDiffer pinData pinClock) where
  reads := by rintro s _ rfl; rfl
  changes := by rintro s _ rfl u; rfl
  logs := by rintro s _ rfl events; rfl
  returns := by rintro s _ rfl status; rfl

/-- Settles O50: a step extends the state it starts from, and the simulation for states that differ in the pins. -/
theorem parametersAreFixed : Obligations.ParametersAreFixed := by
  refine fun s => ⟨fun t ht => (step_extends ht).cfg, fun a b t ht => ?_⟩
  have hstep := (hides_pinsDiffer a b).step (s := s) rfl
  rw [ht] at hstep
  generalize step { s with cfg := { s.cfg with pinData := a, pinClock := b } } = o at hstep
  cases hstep with
  | next h => rw [h, (step_extends ht).cfg]

/-! ### The history of W -/

/-- The second state is the first with these events before its W. -/
def HasPast (past : List Event) (s s' : State) : Prop := s' = { s with w := past ++ s.w }

theorem hides_hasPast (past : List Event) : Hides (HasPast past) where
  reads := by rintro s _ rfl; rfl
  changes := by rintro s _ rfl u; rfl
  logs := by
    rintro s _ rfl events
    simp only [HasPast, State.logged, List.append_assoc]
  returns := by rintro s _ rfl status; rfl

/-- Settles O40: DISPOSE leaves the block as at power-on but for W, and NEW does not read W. -/
theorem newAfterDisposeIsAsAtPowerOn : Obligations.NewAfterDisposeIsAsAtPowerOn := by
  intro s t hexec
  have hexec : execDispose s = .next t := hexec
  refine ⟨?released, fun ledCount => ?new⟩
  case released =>
    cases ha : s.isActive
    · rw [execDispose_of_not_active ha] at hexec
      cases hexec
    · obtain ⟨n, hl⟩ := State.life_of_active ha
      obtain ⟨u, status, hu, -⟩ := execDispose_releases hl
      rw [hu] at hexec
      cases hexec
      exact ⟨rfl, rfl, rfl, rfl, rfl⟩
  case new =>
    have hpast : HasPast t.w { t with w := [] } t := by rw [HasPast, List.append_nil]
    have hnew := (hides_hasPast t.w).exec hpast (.new ledCount)
    have hfault := exec_ne_fault (.new ledCount) t
    generalize exec (.new ledCount) { t with w := [] } = o at hnew
    generalize exec (.new ledCount) t = o' at hnew hfault
    cases hnew with
    | next h => exact .inr ⟨_, rfl, by rw [h]⟩
    | fault f => exact absurd rfl (hfault f)
    | refused r => exact .inl ⟨r, rfl, rfl⟩

end Sys2Proof.Machine
end

section
/-! Runs of a host (42_lifecycle.md R136): each command of a run starts between commands, and a run that ends UNBUILT
ends with a DISPOSE. -/

namespace Sys2Proof.Machine

/-- A run of a host keeps the invariant between commands. -/
theorem hostRun_keeps_betweenCommands {words : List CommandWord} {s t : State} (h : s.BetweenCommands)
    (hrun : hostRun words s = .next t) : t.BetweenCommands := by
  induction words generalizing s with
  | nil =>
    cases hrun
    exact h
  | cons w rest ih =>
    rw [hostRun] at hrun
    have hwaiting : State.BetweenCommands { s with hostCommands := [w] } := ⟨h.noFrame, h.txIdle, h.levelsUnbuilt⟩
    cases hstep : step { s with hostCommands := [w] } with
    | next u =>
      rw [hstep] at hrun
      exact ih (hostCommandsEndBetweenCommands _ _ hwaiting hstep) hrun
    | fault f =>
      rw [hstep] at hrun
      cases hrun
    | refused r =>
      rw [hstep] at hrun
      cases hrun

/-- A run of at least one command ends with the execution of its last. -/
theorem hostRun_last {words : List CommandWord} {s t : State} (hne : words ≠ []) (h : s.BetweenCommands)
    (hrun : hostRun words s = .next t) :
    ∃ before last u i, words = before ++ [last] ∧ hostRun before s = .next u ∧ decodeCommand last = .ok i ∧
      exec i { u with hostCommands := [] } = .next t := by
  obtain ⟨before, last, rfl⟩ := List.eq_nil_or_concat' words |>.resolve_left hne
  obtain ⟨u, hbefore, hstep⟩ := hostRun_snoc hrun
  have hu := hostRun_keeps_betweenCommands h hbefore
  obtain ⟨i, hd, hexec⟩ := step_one_command_inv hu.txIdle hu.noFrame hstep
  exact ⟨before, last, u, i, rfl, hbefore, hd, hexec⟩

/-- Only DISPOSE of a controller that exists leaves LIFE UNBUILT (R13). -/
theorem dispose_of_unbuilt {i : Instr} {s t : State} (hc : i.isCommand = true) (hexec : exec i s = .next t)
    (ht : t.life = .unbuilt) : i = .dispose ∧ ∃ n, s.life = .active n := by
  obtain ⟨ledCount, -, -, ⟨hl, -⟩ | ⟨hl, -⟩⟩ | ⟨n, hl, ⟨hi, -⟩ | ⟨-, -, hstay⟩⟩ := lifecycleTransitions i s t hc hexec
  · simp [ht] at hl
  · simp [ht] at hl
  · exact ⟨hi, n, hl⟩
  · simp [ht] at hstay

/-- A run of at least one command that ends UNBUILT ends with a DISPOSE of a controller that existed. -/
theorem hostRun_unbuilt {words : List CommandWord} {s t : State} (hne : words ≠ []) (h : s.BetweenCommands)
    (hrun : hostRun words s = .next t) (ht : t.life = .unbuilt) :
    ∃ before last u n, words = before ++ [last] ∧ decodeCommand last = .ok .dispose ∧ hostRun before s = .next u ∧
      u.life = .active n ∧ execDispose { u with hostCommands := [] } = .next t := by
  obtain ⟨before, last, u, i, hwords, hbefore, hd, hexec⟩ := hostRun_last hne h hrun
  obtain ⟨rfl, n, hl⟩ := dispose_of_unbuilt (decodeCommand_cmd hd) hexec ht
  exact ⟨before, last, u, n, hwords, hd, hbefore, hl, hexec⟩

theorem RunComplete.ne_nil {s t : State} {words : List CommandWord} (h : RunComplete s words t) : words ≠ [] := by
  obtain ⟨w, hw, -⟩ := h.disposed
  exact List.ne_nil_of_mem hw

/-- Settles O55: a run by the LIFE it ends in. -/
theorem hostRunsAreClassified : Obligations.HostRunsAreClassified := by
  intro s t words h hrun
  refine ⟨?one, fun hnil hcomplete => hcomplete.ne_nil hnil, fun hcomplete => ?complete, fun howes hfaulted => ?owes⟩
  case one =>
    by_cases hne : words = []
    · exact .inl hne
    · cases hl : t.life with
      | unbuilt =>
        obtain ⟨before, last, u, n, rfl, hd, -⟩ := hostRun_unbuilt hne h hrun hl
        exact .inr (.inl ⟨hrun, ⟨last, by simp, hd⟩, hl⟩)
      | active n => exact .inr (.inr (.inl (State.isActive_of_life hl)))
      | failed => exact .inr (.inr (.inr hl))
  case complete =>
    constructor
    · simp [State.owesDispose, State.isActive, hcomplete.unbuilt]
    · simp [State.runFaulted, hcomplete.unbuilt]
  case owes =>
    obtain ⟨n, hl⟩ := State.life_of_active howes
    simp [State.runFaulted, hl] at hfaulted

/-- Settles O56: the last command is a DISPOSE, and its SHOW ends W with the all-off stream. -/
theorem completeRunsEndDark : Obligations.CompleteRunsEndDark := by
  intro s t words h hcomplete
  obtain ⟨before, last, u, n, hwords, hd, hbefore, hl, hexec⟩ :=
    hostRun_unbuilt hcomplete.ne_nil h hcomplete.returned hcomplete.unbuilt
  refine ⟨before, last, u, n, hwords, hd, hbefore, hl, fun hg => ?_⟩
  obtain ⟨t', hexec', -, hdark⟩ := disposeDarkensAndReleases { u with hostCommands := [] } n hl hg
  obtain rfl : t = t' := Host.Outcome.next.inj (hexec.symm.trans hexec')
  exact hdark

end Sys2Proof.Machine
end

section
/-! The quantiser (30_encoding.md R55, R56, R67): the exact form of Q by its thresholds, and both its forms monotone
in the operand's bit pattern. -/

namespace Sys2Proof.Machine

/-! ### The exact form of Q by its thresholds (D5) -/

/-- The quotient of the exact product lies between two thresholds. -/
theorem exact_level_iff {x k : Nat} :
    31 * x / unitsInOne = k ↔ k * unitsInOne ≤ 31 * x ∧ 31 * x < (k + 1) * unitsInOne := by
  rw [← Nat.le_div_iff_mul_le unitsInOne_pos, ← Nat.div_lt_iff_lt_mul unitsInOne_pos]
  omega

/-- The clamp is 1 exactly for +infinity and for values of at least 1. -/
theorem clamp_eq_one_iff {d : Datum} :
    clamp d = some unitsInOne ↔ d = .posInf ∨ ∃ u : Int, d = .finite u ∧ (unitsInOne : Int) ≤ u := by
  have hpos := unitsInOne_pos
  cases d with
  | negInf => simp [hpos.ne]
  | posInf => simp
  | nan => simp [clamp]
  | finite u =>
    simp only [clamp, Option.some.injEq, reduceCtorEq, false_or, Datum.finite.injEq, exists_eq_left']
    split_ifs <;> omega

/-- At a clamped operand the exact product reaches 31 only at 1. -/
theorem exact_level_eq_31_iff {x : Nat} (h : x ≤ unitsInOne) : 31 * x / unitsInOne = 31 ↔ x = unitsInOne := by
  have hpos := unitsInOne_pos
  rw [exact_level_iff]
  omega

/-- The clamp of a value below 1/31 keeps its product below 1. -/
theorem clamp_product_lt_one {u : Int} {x : Nat} (hx : clamp (.finite u) = some x) (hu : 31 * u < (unitsInOne : Int)) :
    31 * x < unitsInOne := by
  have hpos := unitsInOne_pos
  simp only [clamp, Option.some.injEq] at hx
  split_ifs at hx <;> omega

/-- Settles O10: every clause is about the quotient `31 * x / unitsInOne` of the clamped operand. -/
theorem quantiserThresholds : Obligations.QuantiserThresholds := by
  refine ⟨fun b x hx => ?thresholds, fun b c x y lb lc hx hy hxy hb hc => ?monotone⟩
  case thresholds =>
    obtain ⟨level, hq, hval⟩ := exists_quantise_of_clamp .exact hx
    have hval : level.toNat = 31 * x / unitsInOne := hval
    refine ⟨level, hq, hval, fun k _ => by rw [hval, exact_level_iff], ?_, fun u hu hsmall => ?_⟩
    · rw [hval, exact_level_eq_31_iff (clamp_le_one hx), ← clamp_eq_one_iff, hx, Option.some.injEq]
    · rw [hu] at hx
      rw [hval, Nat.div_eq_of_lt (clamp_product_lt_one hx hsmall)]
  case monotone =>
    obtain ⟨x', hx', hvalb, -⟩ := quantise_eq_some hb
    obtain ⟨y', hy', hvalc, -⟩ := quantise_eq_some hc
    obtain rfl := Option.some.inj (hx.symm.trans hx')
    obtain rfl := Option.some.inj (hy.symm.trans hy')
    rw [hvalb, hvalc]
    exact Nat.div_le_div_right (Nat.mul_le_mul_left 31 hxy)

/-! ### Rounding to 53 bits is monotone -/

/-- Rounding to the nearest multiple of `step`, ties to an even multiple. -/
def roundBy (step y : Nat) : Nat :=
  if step < 2 * (y % step) ∨ (step = 2 * (y % step) ∧ y / step % 2 = 1) then (y / step + 1) * step
  else y / step * step

theorem roundTo53_of_lt {y : Nat} (h : y < 2 ^ 53) : roundTo53 y = y := if_pos h

theorem roundTo53_of_le {y : Nat} (h : 2 ^ 53 ≤ y) : roundTo53 y = roundBy (2 ^ (Nat.log2 y - 52)) y :=
  if_neg (by omega)

theorem div_mul_le_roundBy (step y : Nat) : y / step * step ≤ roundBy step y := by
  unfold roundBy
  split
  · exact Nat.mul_le_mul_right step (Nat.le_succ _)
  · exact Nat.le_refl _

theorem roundBy_le_succ_div_mul (step y : Nat) : roundBy step y ≤ (y / step + 1) * step := by
  unfold roundBy
  split
  · exact Nat.le_refl _
  · exact Nat.mul_le_mul_right step (Nat.le_succ _)

theorem roundBy_mono (step : Nat) {y z : Nat} (hyz : y ≤ z) : roundBy step y ≤ roundBy step z := by
  obtain hq | hq := Nat.lt_or_eq_of_le (Nat.div_le_div_right (c := step) hyz)
  · calc roundBy step y ≤ (y / step + 1) * step := roundBy_le_succ_div_mul step y
      _ ≤ z / step * step := Nat.mul_le_mul_right step hq
      _ ≤ roundBy step z := div_mul_le_roundBy step z
  · have hy := Nat.div_add_mod y step
    have hz := Nat.div_add_mod z step
    rw [← hq] at hz
    have hr : y % step ≤ z % step := by omega
    unfold roundBy
    rw [← hq]
    have hstep : y / step * step ≤ (y / step + 1) * step := Nat.mul_le_mul_right step (Nat.le_succ _)
    split_ifs <;> omega

/-- Rounding does not pass, downwards, a bound that is a multiple of the rounding step. -/
theorem le_roundTo53 {y c e : Nat} (he : Nat.log2 y ≤ e + 52) (hy : c * 2 ^ e ≤ y) : c * 2 ^ e ≤ roundTo53 y := by
  obtain hsmall | hlarge := Nat.lt_or_ge y (2 ^ 53)
  · rwa [roundTo53_of_lt hsmall]
  · obtain ⟨d, hd⟩ : ∃ d, e = Nat.log2 y - 52 + d := ⟨e - (Nat.log2 y - 52), by omega⟩
    have hc : c * 2 ^ e = c * 2 ^ d * 2 ^ (Nat.log2 y - 52) := by
      rw [hd, Nat.pow_add, Nat.mul_assoc, Nat.mul_comm (2 ^ d)]
    rw [hc] at hy ⊢
    have hq := (Nat.le_div_iff_mul_le (Nat.two_pow_pos _)).2 hy
    rw [roundTo53_of_le hlarge]
    exact Nat.le_trans (Nat.mul_le_mul_right _ hq) (div_mul_le_roundBy _ y)

/-- Within one power of two the rounding step is the same; between two, the power of two is a bound to both. -/
theorem roundTo53_mono {y z : Nat} (hyz : y ≤ z) : roundTo53 y ≤ roundTo53 z := by
  obtain hsmall | hlarge := Nat.lt_or_ge z (2 ^ 53)
  · rwa [roundTo53_of_lt (by omega), roundTo53_of_lt hsmall]
  · have hz : z ≠ 0 := by omega
    have hlogz : 53 ≤ Nat.log2 z := (Nat.le_log2 hz).2 hlarge
    have hpow : 2 ^ Nat.log2 z = 2 ^ 52 * 2 ^ (Nat.log2 z - 52) := by
      rw [← Nat.pow_add]
      congr 1
      omega
    have hz_up : 2 ^ Nat.log2 z ≤ roundTo53 z := by
      rw [hpow]
      exact le_roundTo53 (by omega) (by rw [← hpow]; exact Nat.log2_self_le hz)
    obtain hlt | hge := Nat.lt_or_ge y (2 ^ Nat.log2 z)
    · refine Nat.le_trans ?_ hz_up
      have hlogy : Nat.log2 y ≤ Nat.log2 z := by
        by_cases hy : y = 0
        · rw [hy]
          exact Nat.zero_le _
        · exact Nat.le_of_lt ((Nat.log2_lt hy).2 hlt)
      rw [hpow] at hlt ⊢
      exact roundTo53_le (by omega) (Nat.le_of_lt hlt)
    · have hy : y ≠ 0 := by
        have hpos := Nat.two_pow_pos (Nat.log2 z)
        omega
      have hlow := (Nat.le_log2 hy).2 hge
      have hhigh : Nat.log2 y ≤ Nat.log2 z := (Nat.le_log2 hz).2 (Nat.le_trans (Nat.log2_self_le hy) hyz)
      have h53 : 2 ^ 53 ≤ 2 ^ Nat.log2 z := Nat.pow_le_pow_right (by decide) hlogz
      rw [roundTo53_of_le (Nat.le_trans h53 hge), roundTo53_of_le hlarge, Nat.le_antisymm hhigh hlow]
      exact roundBy_mono _ hyz

theorem quantiseUnits_mono (q : Quantiser) {x y : Nat} (h : x ≤ y) : quantiseUnits q x ≤ quantiseUnits q y := by
  have h31 : 31 * x ≤ 31 * y := Nat.mul_le_mul_left 31 h
  cases q with
  | exact => exact Nat.div_le_div_right h31
  | product64 => exact Nat.div_le_div_right (roundTo53_mono h31)

/-- The product formed in binary64 never has a lower level than the exact one: a threshold is representable. -/
theorem exact_le_product64 {x : Nat} (h : x ≤ unitsInOne) : quantiseUnits .exact x ≤ quantiseUnits .product64 x := by
  refine (Nat.le_div_iff_mul_le unitsInOne_pos).2 ?_
  obtain ⟨e, hone⟩ : ∃ e, unitsInOne = 2 ^ e := ⟨1074, unitsInOne_eq.trans (Nat.one_mul _)⟩
  rw [quantiseUnits, hone]
  refine le_roundTo53 ?_ (Nat.div_mul_le_self _ _)
  by_cases h0 : 31 * x = 0
  · rw [h0]
    exact Nat.zero_le _
  · have hpow : 2 ^ (e + 53) = 2 ^ e * 2 ^ 53 := Nat.pow_add ..
    have hlt : 31 * x < 2 ^ (e + 53) := by
      have hpos := Nat.two_pow_pos e
      omega
    have hlog := (Nat.log2_lt h0).2 hlt
    omega

/-! ### The operand's value is monotone in its bit pattern (R59) -/

theorem exponentField_eq (b : Binary64) : exponentField b = b.toNat / 2 ^ 52 % 2 ^ 11 := by
  rw [exponentField, BitVec.extractLsb'_toNat, Nat.shiftRight_eq_div_pow]

theorem fractionField_eq (b : Binary64) : fractionField b = b.toNat % 2 ^ 52 := by
  rw [fractionField, BitVec.extractLsb'_toNat, Nat.shiftRight_zero]

theorem signBit_eq (b : Binary64) : signBit b = decide (2 ^ 63 ≤ b.toNat) := by
  have h := BitVec.msb_eq_decide b
  rwa [BitVec.msb_eq_getLsbD_last] at h

/-- The magnitude is monotone in the exponent and fraction fields, read as one number. -/
theorem magnitude_mono {b c : Binary64} (h : b.toNat ≤ c.toNat) (hc : c.toNat < 2 ^ 63) :
    magnitude b ≤ magnitude c := by
  have heb := exponentField_eq b
  have hec := exponentField_eq c
  have hfb := fractionField_eq b
  have hfc := fractionField_eq c
  unfold magnitude
  obtain heq | hlt : (exponentField b = exponentField c ∧ fractionField b ≤ fractionField c) ∨
      exponentField b < exponentField c := by omega
  · obtain ⟨he, hf⟩ := heq
    rw [he]
    split
    · exact hf
    · exact Nat.mul_le_mul_right _ (by omega)
  · rw [if_neg (by omega : exponentField c ≠ 0)]
    have hone : 2 ^ 0 ≤ 2 ^ (exponentField c - 1) := Nat.pow_le_pow_right (by decide) (Nat.zero_le _)
    split
    · calc fractionField b ≤ 2 ^ 52 * 2 ^ 0 := by omega
        _ ≤ (2 ^ 52 + fractionField c) * 2 ^ (exponentField c - 1) :=
          Nat.mul_le_mul (Nat.le_add_right _ _) hone
    · calc (2 ^ 52 + fractionField b) * 2 ^ (exponentField b - 1)
          ≤ 2 ^ 53 * 2 ^ (exponentField b - 1) := Nat.mul_le_mul_right _ (by omega)
        _ = 2 ^ 52 * 2 ^ (exponentField b - 1 + 1) := by rw [Nat.pow_succ 2 (exponentField b - 1)]; omega
        _ ≤ (2 ^ 52 + fractionField c) * 2 ^ (exponentField c - 1) :=
          Nat.mul_le_mul (Nat.le_add_right _ _) (Nat.pow_le_pow_right (by decide) (by omega))

/-- The bit pattern of +infinity, the last that is a positive number or an infinity. -/
def infPattern : Nat := 0x7FF0000000000000

/-- The clamped value of a pattern from +0 to +infinity. -/
theorem clamp_datum_of_le_inf {b : Binary64} (h : b.toNat ≤ infPattern) :
    clamp (datum b) = some (if b.toNat = infPattern then unitsInOne else min (magnitude b) unitsInOne) := by
  rw [infPattern] at h ⊢
  have he := exponentField_eq b
  have hf := fractionField_eq b
  have hs : signBit b = false := by
    rw [signBit_eq]
    exact decide_eq_false (by omega)
  have hfinite : b.toNat ≠ 0x7FF0000000000000 → datum b = .finite (magnitude b : Int) := fun hne => by
    rw [datum, if_neg (by omega), hs]
    rfl
  split
  · rename_i hinf
    rw [datum, if_pos (by omega), if_pos (by omega), hs]
    rfl
  · rename_i hne
    rw [hfinite hne, clamp, Option.some.injEq]
    split_ifs <;> omega

end Sys2Proof.Machine
end

section
/-! Where the two forms of the quantiser differ (30_encoding.md R67): both are monotone in the bit pattern, so the
table's values at each threshold and just below it decide every operand between. -/

namespace Sys2Proof.Machine

/-- Both forms of Q are monotone in the bit pattern, from +0 to +infinity. -/
theorem quantise_mono {q : Quantiser} {b c : Binary64} {lb lc : Byte} (hbc : b.toNat ≤ c.toNat)
    (hc : c.toNat ≤ infPattern) (hb : quantise q b = some lb) (hqc : quantise q c = some lc) : lb.toNat ≤ lc.toNat := by
  obtain ⟨x, hx, hlb, -⟩ := quantise_eq_some hb
  obtain ⟨y, hy, hlc, -⟩ := quantise_eq_some hqc
  have hxy : x ≤ y := by
    have hyle := clamp_le_one hy
    have hxle := clamp_le_one hx
    rw [clamp_datum_of_le_inf (Nat.le_trans hbc hc), Option.some.injEq] at hx
    rw [clamp_datum_of_le_inf hc, Option.some.injEq] at hy
    rw [infPattern] at hc hx hy
    have hmag : magnitude b ≤ magnitude c := magnitude_mono hbc (by omega)
    split_ifs at hx hy <;> omega
  rw [hlb, hlc]
  exact quantiseUnits_mono q hxy

/-- A NaN aside, an operand above +infinity's pattern is negative or -0, and has level 0. -/
theorem quantise_of_inf_lt {b : Binary64} (h : infPattern < b.toNat) (q : Quantiser) :
    quantise q b = none ∨ quantise q b = some 0 := by
  have he := exponentField_eq b
  have hf := fractionField_eq b
  have hs := signBit_eq b
  rw [infPattern] at h
  by_cases hnan : datum b = .nan
  · exact .inl (quantise_eq_none.2 hnan)
  · right
    have hneg : 2 ^ 63 ≤ b.toNat := by
      by_contra hpos
      exact hnan (by rw [datum, if_pos (by omega), if_neg (by omega)])
    have hzero : clamp (datum b) = some 0 := by
      rw [decide_eq_true hneg] at hs
      rw [datum] at hnan ⊢
      split_ifs at hnan ⊢ with hexp hfrac
      · rfl
      · exact absurd rfl hnan
      · rw [clamp, Option.some.injEq]
        split_ifs <;> omega
    have hlevel : quantiseUnits q 0 = 0 := by
      cases q <;> simp [quantiseUnits, roundTo53]
    rw [quantise, hzero, Option.map_some, hlevel]
    rfl

/-- The rows of the table are those of k = 1..31. -/
theorem exists_threshold_row {k : Nat} (h1 : 1 ≤ k) (h31 : k ≤ 31) : ∃ row ∈ thresholdTable, row.1 = k := by
  have hrows : ∀ i : Fin 31, ∃ row ∈ thresholdTable, row.1 = i.val + 1 := by decide
  obtain ⟨row, hrow, hk⟩ := hrows ⟨k - 1, by omega⟩
  exact ⟨row, hrow, by rw [hk]; exact Nat.sub_add_cancel h1⟩

/-- Settles O11: both forms of Q computed at each threshold and just below it. -/
theorem thresholdTableHolds : Obligations.ThresholdTableHolds := by
  unfold Obligations.ThresholdTableHolds
  decide +kernel

/-- Each threshold lies above 2 units in the last place and below +infinity. -/
theorem threshold_range : ∀ row ∈ thresholdTable, 2 ≤ row.2.1.toNat ∧ row.2.1.toNat ≤ infPattern := by
  decide +kernel

/-- Two units in the last place below a threshold the binary64 product does not reach it. -/
theorem product64_two_below : ∀ row ∈ thresholdTable,
    quantise .product64 (row.2.1 - 2) = some (BitVec.ofNat 8 (row.1 - 1)) := by
  decide +kernel

/-- At the marked operands the two forms of Q differ. -/
theorem quantisers_differ_at_marked : ∀ row ∈ thresholdTable.filter (fun row => row.2.2),
    quantise .exact (row.2.1 - 1) ≠ quantise .product64 (row.2.1 - 1) := by
  decide +kernel

/-- An operand of exact level k below 31 lies below the threshold of k + 1; unless it is just below, the binary64
product gives level k too. -/
theorem product64_eq_exact_unless_just_below {b : Binary64} {le lp : Byte} {row : Nat × Binary64 × Bool}
    (hb : b.toNat ≤ infPattern) (hrow : row ∈ thresholdTable) (hk : row.1 = le.toNat + 1)
    (he : quantise .exact b = some le) (hp : quantise .product64 b = some lp) (hle : le.toNat ≤ lp.toNat)
    (hne : b ≠ row.2.1 - 1) : le = lp := by
  obtain ⟨hexact, -⟩ := thresholdTableHolds row hrow
  obtain ⟨htwo, hinf⟩ := threshold_range row hrow
  obtain ⟨-, -, -, hlevel⟩ := quantise_eq_some he
  have hbelow : b.toNat < row.2.1.toNat := by
    by_contra hge
    have hup := quantise_mono (Nat.le_of_not_lt hge) hb hexact he
    rw [hk, BitVec.toNat_ofNat, Nat.mod_eq_of_lt (by omega)] at hup
    omega
  have hone : (row.2.1 - 1).toNat = row.2.1.toNat - 1 :=
    BitVec.toNat_sub_of_le (x := row.2.1) (y := 1) (Nat.le_trans (m := 2) (by decide) htwo)
  have htwo' : (row.2.1 - 2).toNat = row.2.1.toNat - 2 := BitVec.toNat_sub_of_le (y := 2) htwo
  have hne' : b.toNat ≠ row.2.1.toNat - 1 := by
    rw [← hone]
    exact fun h => hne (BitVec.eq_of_toNat_eq h)
  have hdown := quantise_mono (by omega) (by omega) hp (product64_two_below row hrow)
  rw [hk, BitVec.toNat_ofNat, Nat.mod_eq_of_lt (by omega)] at hdown
  exact BitVec.eq_of_toNat_eq (by omega)

/-- Where the two forms of Q differ, the operand is just below a marked threshold. -/
theorem just_below_marked_of_differ {b : Binary64} (h : quantise .exact b ≠ quantise .product64 b) :
    ∃ row ∈ thresholdTable, row.2.2 = true ∧ b = row.2.1 - 1 := by
  cases hx : clamp (datum b) with
  | none =>
    simp only [quantise, hx, Option.map_none, ne_eq, not_true_eq_false] at h
  | some x =>
    obtain ⟨le, he, hle⟩ := exists_quantise_of_clamp .exact hx
    obtain ⟨lp, hp, hlp⟩ := exists_quantise_of_clamp .product64 hx
    have hxle := clamp_le_one hx
    have hlow : le.toNat ≤ lp.toNat := by
      rw [hle, hlp]
      exact exact_le_product64 hxle
    have hmax : lp.toNat ≤ 31 := by
      rw [hlp]
      exact quantiseUnits_le _ hxle
    have hne : le ≠ lp := fun heq => h (by rw [he, hp, heq])
    have hlt : le.toNat < lp.toNat := Nat.lt_of_le_of_ne hlow fun heq => hne (BitVec.eq_of_toNat_eq heq)
    have hpositive : b.toNat ≤ infPattern := by
      by_contra hgt
      obtain hq | hq := quantise_of_inf_lt (Nat.lt_of_not_le hgt) .product64
      · simp [hp] at hq
      · obtain rfl := Option.some.inj (hp.symm.trans hq)
        exact Nat.not_lt_zero _ hlt
    obtain ⟨row, hrow, hk⟩ := exists_threshold_row (k := le.toNat + 1) (by omega) (by omega)
    have hbelow : b = row.2.1 - 1 := by
      by_contra hother
      exact hne (product64_eq_exact_unless_just_below hpositive hrow hk he hp hlow hother)
    refine ⟨row, hrow, ?_, hbelow⟩
    obtain ⟨-, hexact, -, hproduct⟩ := thresholdTableHolds row hrow
    by_contra hunmarked
    rw [Bool.not_eq_true] at hunmarked
    rw [hunmarked] at hproduct
    exact h (by rw [hbelow, hexact, hproduct]; rfl)

/-- Settles O12: the marked operands computed, and no other operand. -/
theorem instancesDifferOnlyAtNineteen : Obligations.InstancesDifferOnlyAtNineteen := by
  refine ⟨by decide, fun b => ⟨fun h => ?_, fun h => ?_⟩⟩
  · obtain ⟨row, hrow, hmarked, rfl⟩ := just_below_marked_of_differ h
    exact List.mem_map.2 ⟨row, List.mem_filter.2 ⟨hrow, hmarked⟩, rfl⟩
  · obtain ⟨row, hrow, rfl⟩ := List.mem_map.1 h
    exact quantisers_differ_at_marked row hrow

end Sys2Proof.Machine
end
